-- ==== Sys2Proof/Word.lean ====
section
/-! DEFINITION. The bit vectors the spec declares (00_scope.md R8, R9): every value of the block is an
unsigned bit vector of the width given where it is declared. -/

namespace Sys2Proof

/-- A byte of a packet (R11). -/
abbrev Byte := BitVec 8

/-- A 16-bit word: register value, CRC word, packet word (R8 `WORD_WIDTH`). -/
abbrev Word := BitVec 16

/-- A 15-bit register address as a packet carries it (R8 `ADDR_WIDTH`). -/
abbrev Address := BitVec 15

/-- A 32-bit command word (R8 `CMD_WIDTH`, R52). -/
abbrev CommandWord := BitVec 32

/-- A 5-bit read-port index (R8 `RD_INDEX_WIDTH`, R33). -/
abbrev ReadIndex := BitVec 5

end Sys2Proof
end

