-- ==== Sys2Proof/Config.lean ====
section
/-! DEFINITION. The implementation parameters of 00_scope.md R8 as one record, the values this hardware takes,
and the two parameters the spec leaves OPEN (92_eei_decisions.md D31, D32). -/

namespace Sys2Proof

/-- The order of a word's two bytes on the wire (R38, R39). -/
inductive ByteOrder where
  | little
  | big
deriving DecidableEq, Repr

/-- The parameter record of R8, one field a row. The widths that are also Lean types (Word.lean) stand here
as numbers. `crcFinalXor` is `none`: the CRC is the running value as left (R66, 90_conflicts.md C1). -/
structure Config where
  wordWidth : Nat
  addrWidth : Nat
  dirBit : Nat
  dirWrite : BitVec 1
  crcSeed : Word
  crcPoly : Word
  crcShiftsPerWord : Nat
  crcFinalXor : Option Word
  frameHeader : Word
  compactLen : Nat
  framedLen : Nat
  compactByteOrder : ByteOrder
  framedByteOrder : ByteOrder
  framedHeaderCheck : Bool
  pktCapacity : Nat
  plenWidth : Nat
  cmdWidth : Nat
  rdIndexWidth : Nat
deriving DecidableEq, Repr

/-- The values R8 gives this hardware. -/
def Config.block : Config where
  wordWidth := 16
  addrWidth := 15
  dirBit := 15
  dirWrite := 1
  crcSeed := 0xFFFF
  crcPoly := 0x8408
  crcShiftsPerWord := 16
  crcFinalXor := none
  frameHeader := 0xAA55
  compactLen := 4
  framedLen := 10
  compactByteOrder := .little
  framedByteOrder := .big
  framedHeaderCheck := true
  pktCapacity := 10
  plenWidth := 8
  cmdWidth := 32
  rdIndexWidth := 5

/-- `PRODUCT_FORMAT` (D31, OPEN): the format bit the host gives SET_FMT for a product class, the classes
numbered by the host. Outside the block; nothing in the machine reads it.
DESIGN CHOICE (a product class is a number): safe, the value is free (log entry 5). -/
opaque Config.productFormat : Nat → BitVec 1

/-- `READ_VALUE_WORD` (D32, OPEN): the value word the host loads with SET_VAL before it encodes a Read.
Outside the block; nothing in the machine reads it. Free value, safe (log entry 5). -/
opaque Config.readValueWord : Word

end Sys2Proof
end

