-- ==== Sys2Proof/Machine/Crc.lean ====
section
/-! DEFINITION. The CRC function of the Checksum Engine (40_checksum.md R64 to R67): pure functions. -/

namespace Sys2Proof.Machine

/-- One shift step (R64): a logical right shift, then the XOR if bit 0 was set before the shift. -/
def crcStep (c : Word) : Word :=
  if c.getLsbD 0 then (c >>> 1) ^^^ Config.block.crcPoly else c >>> 1

/-- `n` shift steps. -/
def crcShift : Nat → Word → Word
  | 0, t => t
  | n + 1, t => crcShift n (crcStep t)

/-- Folding one word into a running value: XOR the whole word in, then sixteen shift steps (R65). -/
def crcWord (c w : Word) : Word := crcShift Config.block.crcShiftsPerWord (c ^^^ w)

/-- `compute` (R66): from the seed, the words in order, and no final XOR. -/
def compute (ws : List Word) : Word := ws.foldl crcWord Config.block.crcSeed

/-- `verify` (R67). -/
def verify (ws : List Word) (e : Word) : Bool := compute ws == e

end Sys2Proof.Machine
end

