-- ==== Sys2Proof/Machine/Operands.lean ====
section
/-! DEFINITION. Words and bytes (00_scope.md R11, 20_memory.md R38 to R40) and the address word
(30_encoding.md R58, 41_compact_codec.md R73). -/

namespace Sys2Proof.Machine

/-- `be16(w)` (R11). -/
def be16 (w : Word) : List Byte := [w.extractLsb' 8 8, w.extractLsb' 0 8]

/-- `le16(w)` (R11). -/
def le16 (w : Word) : List Byte := [w.extractLsb' 0 8, w.extractLsb' 8 8]

/-- `from_be(b_hi, b_lo)` (R11). -/
def fromBe (hi lo : Byte) : Word := (hi.setWidth 16 <<< 8) ||| lo.setWidth 16

/-- `from_le(b_lo, b_hi)` (R11). -/
def fromLe (lo hi : Byte) : Word := fromBe hi lo

/-- A word's bytes in a format's byte order (R38, R39). -/
def wordBytes (o : ByteOrder) (w : Word) : List Byte :=
  match o with
  | .little => le16 w
  | .big => be16 w

/-- The word of two bytes that follow each other on the wire, in a format's byte order (R38, R39). -/
def wordOfBytes (o : ByteOrder) (first second : Byte) : Word :=
  match o with
  | .little => fromLe first second
  | .big => fromBe first second

/-- The two directions of a transaction (R16, R21). -/
inductive Direction where
  | read
  | write
deriving DecidableEq, Repr

/-- The direction flag: `DIR_WRITE` for a Write and the other value for a Read (R8, R21). -/
def directionBit : Direction → BitVec 1
  | .write => Config.block.dirWrite
  | .read => ~~~Config.block.dirWrite

/-- The bits of an address that are sent: 0x7FFF, the low `ADDR_WIDTH` bits (R22, R73). -/
def addrMask : Word := BitVec.ofNat 16 (2 ^ Config.block.addrWidth - 1)

/-- `addrWord(d, a)`: the direction in bit 15, the address masked to 15 bits (R58, R73). -/
def addrWord (d : BitVec 1) (a : Word) : Word :=
  (d.setWidth 16 <<< Config.block.dirBit) ||| (a &&& addrMask)

/-- The direction of an address word, `aw[15]` (R58, R75). -/
def dirOfAddrWord (aw : Word) : BitVec 1 := aw.extractLsb' Config.block.dirBit 1

/-- The address of an address word, `aw[14:0]` (R58, R75). -/
def addrOfAddrWord (aw : Word) : Address := aw.extractLsb' 0 15

end Sys2Proof.Machine
end

