-- ==== Sys2Proof/Machine/Codec.lean ====
section
/-! DEFINITION. The packet codec's pure functions (41_compact_codec.md R74, R75; 42_framed_codec.md R80 to R83). -/

namespace Sys2Proof.Machine

/-- The error kinds of the decode functions (R75, R81). -/
inductive CodecError where
  | invalidLength
  | crcMismatch
  | badHeader
deriving DecidableEq, Repr

/-- The fields `decodeCompact` returns (R75). -/
structure CompactFields where
  dir : BitVec 1
  addr : Address
  value : Word
deriving DecidableEq, Repr

/-- The fields `decodeFramed` returns (R81). -/
structure FramedFields where
  mtype : Word
  dir : BitVec 1
  addr : Address
  value : Word
deriving DecidableEq, Repr

/-- `encodeCompact` (R74): the address word, then the value word. -/
def encodeCompact (d : BitVec 1) (a v : Word) : List Byte :=
  wordBytes Config.block.compactByteOrder (addrWord d a) ++ wordBytes Config.block.compactByteOrder v

/-- `decodeCompact` (R75): the length is the only check. -/
def decodeCompact (bs : List Byte) : Except CodecError CompactFields :=
  match bs with
  | [b0, b1, b2, b3] =>
    .ok { dir := dirOfAddrWord (wordOfBytes Config.block.compactByteOrder b0 b1)
          addr := addrOfAddrWord (wordOfBytes Config.block.compactByteOrder b0 b1)
          value := wordOfBytes Config.block.compactByteOrder b2 b3 }
  | _ => .error .invalidLength

/-- The four words under the checksum: header, message type, address word, data word (R60, R80). -/
def framedWords (mt : Word) (d : BitVec 1) (a v : Word) : List Word :=
  [Config.block.frameHeader, mt, addrWord d a, v]

/-- `encodeFramed` (R80): the four words and their checksum over the words as numbers. -/
def encodeFramed (mt : Word) (d : BitVec 1) (a v : Word) : List Byte :=
  (framedWords mt d a v ++ [compute (framedWords mt d a v)]).flatMap (wordBytes Config.block.framedByteOrder)

/-- The checks of `decodeFramed` after the length, on the five words: the CRC, then the header if `headerCheck`
asks for it (R81, R82). -/
def decodeFramedWords (headerCheck : Bool) (w0 w1 w2 w3 w4 : Word) : Except CodecError FramedFields :=
  if ¬ verify [w0, w1, w2, w3] w4 then .error .crcMismatch
  else if headerCheck ∧ w0 ≠ Config.block.frameHeader then .error .badHeader
  else .ok { mtype := w1, dir := dirOfAddrWord w2, addr := addrOfAddrWord w2, value := w3 }

/-- `decodeFramed` (R81), with `FRAMED_HEADER_CHECK` as an argument (R82): length, CRC, header, unpack. -/
def decodeFramed (headerCheck : Bool) (bs : List Byte) : Except CodecError FramedFields :=
  match bs with
  | [b0, b1, b2, b3, b4, b5, b6, b7, b8, b9] =>
    decodeFramedWords headerCheck
      (wordOfBytes Config.block.framedByteOrder b0 b1) (wordOfBytes Config.block.framedByteOrder b2 b3)
      (wordOfBytes Config.block.framedByteOrder b4 b5) (wordOfBytes Config.block.framedByteOrder b6 b7)
      (wordOfBytes Config.block.framedByteOrder b8 b9)
  | _ => .error .invalidLength

end Sys2Proof.Machine
end

