-- ==== Sys2Proof/Syntax.lean ====
section
/-! DEFINITION. The commands (30_encoding.md R55) and what the host presents to the block. -/

namespace Sys2Proof

/-- The seventeen commands of R55, one constructor per row of spec/opcode_table.json. An operand has exactly
the width of its operand class (R54), so a command with an operand that does not fit cannot be written. -/
inductive Instr where
  | nop
  | crcInit
  | crcUpd (imm16 : Word)
  | crcChk (imm16 : Word)
  | setDir (b : BitVec 1)
  | setAddr (imm16 : Word)
  | setVal (imm16 : Word)
  | setMtype (imm16 : Word)
  | setFmt (b : BitVec 1)
  | pktClr
  | pktPush (imm8 : Byte)
  | encC
  | decC
  | encF
  | decF
  | encode
  | decode
deriving DecidableEq, Repr

/-- The names of the opcode map of R55. -/
inductive Mnemonic where
  | nop | crcInit | crcUpd | crcChk
  | setDir | setAddr | setVal | setMtype | setFmt
  | pktClr | pktPush
  | encC | decC | encF | decF | encode | decode
deriving DecidableEq, Repr

/-- The operand classes of R54. -/
inductive OperandClass where
  | n
  | i1
  | i8
  | i16
deriving DecidableEq, Repr

/-- The number of low bits of `IMM16` that carry the operand; the others must be zero (R54). -/
def OperandClass.bits : OperandClass → Nat
  | .n => 0
  | .i1 => 1
  | .i8 => 8
  | .i16 => 16

/-- The class column of R55. -/
def Mnemonic.operandClass : Mnemonic → OperandClass
  | .nop | .crcInit | .pktClr | .encC | .decC | .encF | .decF | .encode | .decode => .n
  | .setDir | .setFmt => .i1
  | .pktPush => .i8
  | .crcUpd | .crcChk | .setAddr | .setVal | .setMtype => .i16

/-- The row of R55 a command belongs to. -/
def Instr.mnemonic : Instr → Mnemonic
  | .nop => .nop
  | .crcInit => .crcInit
  | .crcUpd _ => .crcUpd
  | .crcChk _ => .crcChk
  | .setDir _ => .setDir
  | .setAddr _ => .setAddr
  | .setVal _ => .setVal
  | .setMtype _ => .setMtype
  | .setFmt _ => .setFmt
  | .pktClr => .pktClr
  | .pktPush _ => .pktPush
  | .encC => .encC
  | .decC => .decC
  | .encF => .encF
  | .decF => .decF
  | .encode => .encode
  | .decode => .decode

/-- One line of the spec's assembly syntax after it is split into its parts (R62, R63): a command with its
operand as a number, the `.word` directive, or a pseudo-instruction. -/
inductive AsmLine where
  | command (m : Mnemonic) (operand : Option Nat)
  | word (w : Nat)
  | crcWords (ws : List Nat)
  | pktLoad (bs : List Nat)
  | setTxn (d a v : Nat)
deriving DecidableEq, Repr

end Sys2Proof
end

