-- ==== Sys2Proof/WellFormed.lean ====
section
/-! DEFINITION. What is well formed: a command word (30_encoding.md R55, R56), by the table's masks and matches
and apart from the decoder, and a line of assembly (R62). A term of `Instr` is well formed by its type. -/

namespace Sys2Proof

/-- A row of the opcode map of R55: a word `w` selects the row whose `(w & mask) == pattern`. -/
structure OpcodeRow where
  mnemonic : Mnemonic
  pattern : CommandWord
  mask : CommandWord
deriving DecidableEq, Repr

/-- A word selects a row (R55). -/
abbrev OpcodeRow.selectedBy (r : OpcodeRow) (w : CommandWord) : Prop := w &&& r.mask = r.pattern

/-- The mask column of R55 by class: bits 31:24, `RSV`, and the bits of `IMM16` that must be zero (R54). -/
def OperandClass.mask : OperandClass → CommandWord
  | .n => 0xFFFFFFFF
  | .i1 => 0xFFFFFFFE
  | .i8 => 0xFFFFFF00
  | .i16 => 0xFFFF0000

/-- The match column of R55. -/
def Mnemonic.pattern : Mnemonic → CommandWord
  | .nop => 0x00000000
  | .crcInit => 0x01000000
  | .crcUpd => 0x02000000
  | .crcChk => 0x03000000
  | .setDir => 0x10000000
  | .setAddr => 0x11000000
  | .setVal => 0x12000000
  | .setMtype => 0x13000000
  | .setFmt => 0x14000000
  | .pktClr => 0x20000000
  | .pktPush => 0x21000000
  | .encC => 0x30000000
  | .decC => 0x31000000
  | .encF => 0x32000000
  | .decF => 0x33000000
  | .encode => 0x34000000
  | .decode => 0x35000000

/-- The row of a mnemonic. -/
def Mnemonic.row (m : Mnemonic) : OpcodeRow := ⟨m, m.pattern, m.operandClass.mask⟩

/-- All seventeen names, in the order of R55. -/
def Mnemonic.all : List Mnemonic :=
  [.nop, .crcInit, .crcUpd, .crcChk] ++
  [.setDir, .setAddr, .setVal, .setMtype, .setFmt] ++
  [.pktClr, .pktPush] ++
  [.encC, .decC, .encF, .decF, .encode, .decode]

/-- The opcode map of R55. -/
def opcodeTable : List OpcodeRow := Mnemonic.all.map Mnemonic.row

/-- A word that matches a row of R55; every other word is an illegal word (R56). -/
abbrev CommandWord.wf (w : CommandWord) : Prop := ∃ r ∈ opcodeTable, r.selectedBy w

/-- A number fits an operand class: it has at most the class's bits (R54, R62). -/
abbrev OperandClass.fits (c : OperandClass) (v : Nat) : Prop := v < 2 ^ c.bits

/-- A line an assembler accepts: a class N command has no operand, every other command one that fits its class,
and `.word` holds a 32-bit word; a pseudo-instruction's operands fit those of the commands it stands for
(R62: "An assembler refuses an operand that does not fit; it never truncates"). DESIGN CHOICE: a line with a wrong number
of operands, a `.word` above 32 bits, and a pseudo-instruction as a whole are refused too (log entry 6). -/
def AsmLine.wf : AsmLine → Bool
  | .command m none => m.operandClass = .n
  | .command m (some v) => m.operandClass ≠ .n ∧ m.operandClass.fits v
  | .word w => w < 2 ^ Config.block.cmdWidth
  | .crcWords ws => ws.all fun w => OperandClass.i16.fits w
  | .pktLoad bs => bs.all fun b => OperandClass.i8.fits b
  | .setTxn d a v => OperandClass.i1.fits d ∧ OperandClass.i16.fits a ∧ OperandClass.i16.fits v

end Sys2Proof
end

