-- ==== Sys2Proof/Decode.lean ====
section
/-! DEFINITION. The decoder, total on all 2^32 command words and rejecting by name (30_encoding.md R52 to R57), and
after it the encoder (R62). -/

namespace Sys2Proof

/-- `OP`, bits 31:24 (R52). -/
def opField (w : CommandWord) : BitVec 8 := w.extractLsb' 24 8

/-- `RSV`, bits 23:16 (R52). -/
def rsvField (w : CommandWord) : BitVec 8 := w.extractLsb' 16 8

/-- `IMM16`, bits 15:0 (R52). -/
def immField (w : CommandWord) : Word := w.extractLsb' 0 16

/-- Why a word is illegal. R56 gives two causes, (a) and (b); (b) is split by the field that holds the bit.
DESIGN CHOICE: the three names; every one has the same effect (R100), so safe (log entry 7). -/
inductive IllegalWord where
  /-- (a) `OP` is not in the table of R55. -/
  | reservedOp
  /-- (b) a bit of `RSV` is 1. -/
  | reservedField
  /-- (b) a bit of `IMM16` that the class requires to be zero is 1. -/
  | operandBits
deriving DecidableEq, Repr

/-- The OP column of R55. -/
def Mnemonic.op : Mnemonic → BitVec 8
  | .nop => 0x00
  | .crcInit => 0x01
  | .crcUpd => 0x02
  | .crcChk => 0x03
  | .setDir => 0x10
  | .setAddr => 0x11
  | .setVal => 0x12
  | .setMtype => 0x13
  | .setFmt => 0x14
  | .pktClr => 0x20
  | .pktPush => 0x21
  | .encC => 0x30
  | .decC => 0x31
  | .encF => 0x32
  | .decF => 0x33
  | .encode => 0x34
  | .decode => 0x35

/-- The command an `OP` value selects; `none` for the reserved values of R57. -/
def mnemonicOfOp (op : BitVec 8) : Option Mnemonic :=
  match op.toNat with
  | 0x00 => some .nop
  | 0x01 => some .crcInit
  | 0x02 => some .crcUpd
  | 0x03 => some .crcChk
  | 0x10 => some .setDir
  | 0x11 => some .setAddr
  | 0x12 => some .setVal
  | 0x13 => some .setMtype
  | 0x14 => some .setFmt
  | 0x20 => some .pktClr
  | 0x21 => some .pktPush
  | 0x30 => some .encC
  | 0x31 => some .decC
  | 0x32 => some .encF
  | 0x33 => some .decF
  | 0x34 => some .encode
  | 0x35 => some .decode
  | _ => none

/-- The command of a mnemonic with the operand its class takes from `IMM16` (R54): bit 0, bits 7:0 or all. -/
def instrOf (m : Mnemonic) (imm : Word) : Instr :=
  match m with
  | .nop => .nop
  | .crcInit => .crcInit
  | .crcUpd => .crcUpd imm
  | .crcChk => .crcChk imm
  | .setDir => .setDir (imm.setWidth 1)
  | .setAddr => .setAddr imm
  | .setVal => .setVal imm
  | .setMtype => .setMtype imm
  | .setFmt => .setFmt (imm.setWidth 1)
  | .pktClr => .pktClr
  | .pktPush => .pktPush (imm.setWidth 8)
  | .encC => .encC
  | .decC => .decC
  | .encF => .encF
  | .decF => .decF
  | .encode => .encode
  | .decode => .decode

/-- The decoder (R54 to R57): the `OP` row, then the bits that must be zero. -/
def decode (w : CommandWord) : Except IllegalWord Instr :=
  match mnemonicOfOp (opField w) with
  | none => .error .reservedOp
  | some m =>
    if rsvField w ≠ 0 then .error .reservedField
    else if m.operandClass.fits (immField w).toNat then .ok (instrOf m (immField w))
    else .error .operandBits

/-- The operand of a command, zero-extended to `IMM16` (R54). -/
def operandOf : Instr → Word
  | .crcUpd imm16 | .crcChk imm16 | .setAddr imm16 | .setVal imm16 | .setMtype imm16 => imm16
  | .setDir b | .setFmt b => b.setWidth 16
  | .pktPush imm8 => imm8.setWidth 16
  | .nop | .crcInit | .pktClr | .encC | .decC | .encF | .decF | .encode | .decode => 0

/-- The word for a command: `(OP << 24) | zext_32(operand)` (R62). -/
def encode (i : Instr) : CommandWord :=
  (i.mnemonic.op.setWidth 32 <<< 24) ||| (operandOf i).setWidth 32

/-- The 32-bit word whose low `nbits` bits are those of `w` and whose other bits are 0. -/
def tableWord (nbits w : Nat) : CommandWord := BitVec.ofNat 32 (w % 2 ^ nbits)

/-- What the decoder reads from a table row's word. A command word is one parallel 32-bit value, not bytes
(20_memory.md R41), so bit k of `w` is bit k of the word; no command is longer than 32 bits (R53).
DESIGN CHOICE: `none` above 32 bits; safe (log entry 9). -/
def decodeTableWord (nbits w : Nat) : Option Instr :=
  if nbits ≤ Config.block.cmdWidth then (decode (tableWord nbits w)).toOption else none

end Sys2Proof
end

