-- ==== Sys2Proof/Machine/State.lean ====
section
/-! DEFINITION. The architectural state (10_state.md R18), the reasons a step can stop, and the state after reset. -/

namespace Sys2Proof.Machine

/-- The block has no fault: "No behaviour of the block is mapped to `fault` or `stuck`"
(93_implementation_defined.md), "Every command has exactly one next state" (R26). So no constructor: nothing can
raise one. DEDUCED, safe (log entry 3). -/
inductive Fault
deriving DecidableEq, Repr

/-- Why a command has no meaning in this model. -/
inductive Refusal where
  /-- Answered by `exec`'s arm of an instruction without a meaning, and by nothing else; no arm answers it now.
  Safe: the machine stops where the hardware goes on. -/
  | notModelled (mnemonic : String)
deriving DecidableEq, Repr

/-- What the host can do to the block that changes its state: present a command word on the command port
(30_encoding.md R52), or reset it, between commands (70_reset_and_hazards.md R111; DEDUCED, log entry 8). -/
inductive Input where
  | command (w : CommandWord)
  | reset
deriving DecidableEq, Repr

/-- The registers of R18, and after them two fields of the model's own. -/
structure State where
  /-- `CRC`, the accumulator of the Checksum Engine (R30). -/
  crc : Word
  /-- `CTRL.FMT`: 0 = compact, 1 = framed (R28). -/
  fmt : BitVec 1
  /-- `CTRL.FMTV`: 1 once the session's format has been set (R28). -/
  fmtv : BitVec 1
  /-- `STATUS.ERR`: the status code of the last command (R27, R29). -/
  err : BitVec 3
  /-- `STATUS.MATCH`: the result of the last CRC_CHK (R27, R29). -/
  matched : BitVec 1
  /-- `DIR`: 1 = Write, 0 = Read (R21). -/
  dir : BitVec 1
  /-- `ADDR`: 16 bits as written, bit 15 included (R22). -/
  addr : Word
  /-- `VALUE` (R23). -/
  value : Word
  /-- `MTYPE` (R24). -/
  mtype : Word
  /-- `PKT[0]` to `PKT[9]`, index 0 the first byte on the wire (R31). -/
  pkt : Vector Byte 10
  /-- `PLEN`: count of bytes offered, saturating at 255 (R32). -/
  plen : BitVec 8
  /-- The model's own field, not block state (R19): what the host presents, in order.
  DESIGN CHOICE (log entry 1). -/
  inputs : List Input
  /-- The model's own field, not block state: the command index `i` of R25. DESIGN CHOICE (log entry 1). -/
  index : Nat
deriving DecidableEq, Repr

/-- The state after reset (R18, R111), the host having presented nothing. -/
def State.reset : State where
  crc := 0xFFFF
  fmt := 0
  fmtv := 0
  err := 0
  matched := 0
  dir := 0
  addr := 0x0000
  value := 0x0000
  mtype := 0x0000
  pkt := Vector.replicate 10 0x00
  plen := 0
  inputs := []
  index := 0

end Sys2Proof.Machine
end

