-- ==== Sys2Proof/Machine/Flags.lean ====
section
/-! DEFINITION. The status codes (60_exceptions.md R98), the MATCH flag (40_checksum.md R72), and the STATUS and
CTRL words (10_state.md R28, R29). -/

namespace Sys2Proof.Machine

/-- The status codes of R98. Code 7 is reserved and never written, so it has no name. -/
inductive StatusCode where
  | ok
  | invalidLength
  | crcMismatch
  | badHeader
  | illegalCommand
  | formatUnset
  | formatLocked
deriving DecidableEq, Repr

/-- The number of a status code (R98). -/
def statusBits : StatusCode → BitVec 3
  | .ok => 0
  | .invalidLength => 1
  | .crcMismatch => 2
  | .badHeader => 3
  | .illegalCommand => 4
  | .formatUnset => 5
  | .formatLocked => 6

/-- `MATCH <- (if CRC == imm16 then 1 else 0)` (R72). -/
def matchFlag (crc expected : Word) : BitVec 1 := if crc = expected then 1 else 0

/-- The STATUS word: ERR in bits 2:0, MATCH in bit 4, the other bits 0 (R29, R34). -/
def statusWord (s : State) : Word := (s.matched.setWidth 16 <<< 4) ||| s.err.setWidth 16

/-- The CTRL word: FMT in bit 0, FMTV in bit 1, the other bits 0 (R28, R34). -/
def ctrlWord (s : State) : Word := (s.fmtv.setWidth 16 <<< 1) ||| s.fmt.setWidth 16

end Sys2Proof.Machine
end

