-- ==== Sys2Proof/Machine/Ops.lean ====
section
/-! DEFINITION. The named operations over the registers: completing and raising (00_scope.md R13), the packet buffer
(10_state.md R31, R32), the codec commands' shared bodies, the read port (R33 to R35), reset (70_reset_and_hazards.md
R111) and the command port (30_encoding.md R52). -/

namespace Sys2Proof.Machine

/-- `complete` (R13): write `OK` to STATUS.ERR, keeping every write the command made. -/
def complete (s : State) : State := { s with err := statusBits .ok }

/-- `raise E` (R13): write the code to STATUS.ERR and leave every other piece of state as it was before the command.
This is all that "taking an exception" is on the block, and there is no return from it: no trap, no saved state, no
vector (60_exceptions.md R99, R103, R104). -/
def raise (e : StatusCode) (s : State) : State := { s with err := statusBits e }

/-- The status code of a codec error kind (R98). -/
def codecStatus : CodecError → StatusCode
  | .invalidLength => .invalidLength
  | .crcMismatch => .crcMismatch
  | .badHeader => .badHeader

/-- `PKT[k]` for the byte indices 0 to 9 (R12, R36). -/
def pktByte (s : State) (k : Fin 10) : Byte := s.pkt[k]

/-- Bytes stored at `k`, `k + 1`, ... of the buffer; what would fall past `PKT[9]` is dropped. -/
def storeFrom : Nat → List Byte → Vector Byte 10 → Vector Byte 10
  | _, [], pkt => pkt
  | k, b :: bs, pkt => storeFrom (k + 1) bs (pkt.setIfInBounds k b)

/-- An encoded packet put in the buffer from `PKT[0]`, with `PLEN` its length (R78, R86). -/
def storePacket (bs : List Byte) (s : State) : State :=
  { s with pkt := storeFrom 0 bs s.pkt, plen := BitVec.ofNat 8 bs.length }

/-- The first `n` bytes of the buffer. -/
def bufferPrefix (n : Nat) (s : State) : List Byte := s.pkt.toList.take n

/-- The packet in the buffer: `PKT[0..min(PLEN,10)-1]` (R31). -/
def packetBytes (s : State) : List Byte := bufferPrefix (min s.plen.toNat Config.block.pktCapacity) s

/-- The largest value of `PLEN`, at which it saturates: 255 (R8, R32). -/
def plenMax : Nat := 2 ^ Config.block.plenWidth - 1

/-- One byte offered to the buffer: stored while `PLEN < 10`, counted up to 255 (R96). -/
def pushByte (b : Byte) (s : State) : State :=
  { s with
    pkt := if s.plen.toNat < Config.block.pktCapacity then s.pkt.setIfInBounds s.plen.toNat b else s.pkt
    plen := BitVec.ofNat 8 (min (s.plen.toNat + 1) plenMax) }

/-- The transaction registers a compact decode writes; `ADDR` bit 15 becomes 0 and MTYPE is not written (R79). -/
def loadCompact (r : CompactFields) (s : State) : State :=
  { s with dir := r.dir, addr := r.addr.setWidth 16, value := r.value }

/-- The transaction registers a framed decode writes, MTYPE among them (R87). -/
def loadFramed (r : FramedFields) (s : State) : State :=
  { s with mtype := r.mtype, dir := r.dir, addr := r.addr.setWidth 16, value := r.value }

/-- The pseudocode of ENC_C (R78), which ENCODE performs too (R89). -/
def performEncC (s : State) : State := complete (storePacket (encodeCompact s.dir s.addr s.value) s)

/-- The pseudocode of ENC_F (R86), which ENCODE performs too (R89). The register CRC is not used (R19). -/
def performEncF (s : State) : State := complete (storePacket (encodeFramed s.mtype s.dir s.addr s.value) s)

/-- The pseudocode of DEC_C (R79), which DECODE performs too (R90). -/
def performDecC (s : State) : State :=
  if s.plen.toNat ≠ Config.block.compactLen then raise .invalidLength s
  else match decodeCompact (bufferPrefix Config.block.compactLen s) with
    | .ok r => complete (loadCompact r s)
    | .error e => raise (codecStatus e) s

/-- The pseudocode of DEC_F (R87), which DECODE performs too (R90). -/
def performDecF (s : State) : State :=
  if s.plen.toNat ≠ Config.block.framedLen then raise .invalidLength s
  else match decodeFramed Config.block.framedHeaderCheck (bufferPrefix Config.block.framedLen s) with
    | .ok r => complete (loadFramed r s)
    | .error e => raise (codecStatus e) s

/-- The read port, `RD(idx)` (R34); the reserved indices 0x12 to 0x1F read 0 (R35). It is a function of the state and
changes nothing (R33; log entry 10). -/
def rd (idx : ReadIndex) (s : State) : Word :=
  match idx.toNat with
  | 0x00 => statusWord s
  | 0x01 => ctrlWord s
  | 0x02 => s.crc
  | 0x03 => s.dir.setWidth 16
  | 0x04 => s.addr
  | 0x05 => s.value
  | 0x06 => s.mtype
  | 0x07 => s.plen.setWidth 16
  | 0x08 => (pktByte s 0).setWidth 16
  | 0x09 => (pktByte s 1).setWidth 16
  | 0x0A => (pktByte s 2).setWidth 16
  | 0x0B => (pktByte s 3).setWidth 16
  | 0x0C => (pktByte s 4).setWidth 16
  | 0x0D => (pktByte s 5).setWidth 16
  | 0x0E => (pktByte s 6).setWidth 16
  | 0x0F => (pktByte s 7).setWidth 16
  | 0x10 => (pktByte s 8).setWidth 16
  | 0x11 => (pktByte s 9).setWidth 16
  | _ => 0x0000

/-- Reset (R111): every register of R18 at its reset value. What the host has to present is not block state and is
kept. DEDUCED (log entry 8). -/
def applyReset (s : State) : State := { State.reset with inputs := s.inputs, index := s.index }

/-- What the host presents next: `inputs[i]`, nothing when `i` has reached the end (R25). -/
def fetch (s : State) : Option Input := s.inputs[s.index]?

/-- The index moves on by exactly 1 (R25). -/
def advance (s : State) : State := { s with index := s.index + 1 }

/-- `xs` with `x` at position `n`; positions missing before it are filled with NOP words. -/
def placeInput : List Input → Nat → Input → List Input
  | [], 0, x => [x]
  | [], n + 1, x => .command 0 :: placeInput [] n x
  | _ :: ys, 0, x => x :: ys
  | y :: ys, n + 1, x => y :: placeInput ys n x

end Sys2Proof.Machine
end

