-- ==== Sys2Proof/Machine/Buffer.lean ====
section
/-! DEFINITION. PKT_CLR, PKT_PUSH and NOP (43_session_and_load.md R95 to R97). -/

namespace Sys2Proof.Machine

/-- PKT_CLR empties the buffer; the bytes stay where they are (R95). -/
def execPktClr (s : State) : Host.Outcome State Fault Refusal := .next (complete { s with plen := 0 })

/-- PKT_PUSH appends one received byte (R96). -/
def execPktPush (imm8 : Byte) (s : State) : Host.Outcome State Fault Refusal :=
  .next (complete (pushByte imm8 s))

/-- NOP does nothing but report success (R97). -/
def execNop (s : State) : Host.Outcome State Fault Refusal := .next (complete s)

end Sys2Proof.Machine
end

