-- ==== Sys2Proof/Machine/Checksum.lean ====
section
/-! DEFINITION. CRC_INIT, CRC_UPD and CRC_CHK (40_checksum.md R70 to R72). -/

namespace Sys2Proof.Machine

/-- CRC_INIT loads the seed (R70). -/
def execCrcInit (s : State) : Host.Outcome State Fault Refusal :=
  .next (complete { s with crc := Config.block.crcSeed })

/-- CRC_UPD folds one word into the accumulator (R71). -/
def execCrcUpd (imm16 : Word) (s : State) : Host.Outcome State Fault Refusal :=
  .next (complete { s with crc := crcWord s.crc imm16 })

/-- CRC_CHK compares the accumulator with an expected checksum; a mismatch is a result, not an error (R72). -/
def execCrcChk (imm16 : Word) (s : State) : Host.Outcome State Fault Refusal :=
  .next (complete { s with matched := matchFlag s.crc imm16 })

end Sys2Proof.Machine
end

