-- ==== Sys2Proof/Machine/Compact.lean ====
section
/-! DEFINITION. ENC_C and DEC_C (41_compact_codec.md R78, R79). -/

namespace Sys2Proof.Machine

/-- ENC_C encodes the transaction registers as a compact packet (R78). -/
def execEncC (s : State) : Host.Outcome State Fault Refusal := .next (performEncC s)

/-- DEC_C decodes the buffer as a compact packet (R79). -/
def execDecC (s : State) : Host.Outcome State Fault Refusal := .next (performDecC s)

end Sys2Proof.Machine
end

