-- ==== Sys2Proof/Machine/Framed.lean ====
section
/-! DEFINITION. ENC_F and DEC_F (42_framed_codec.md R86, R87). -/

namespace Sys2Proof.Machine

/-- ENC_F encodes the transaction registers and the message type as a framed packet (R86). -/
def execEncF (s : State) : Host.Outcome State Fault Refusal := .next (performEncF s)

/-- DEC_F decodes the buffer as a framed packet (R87). -/
def execDecF (s : State) : Host.Outcome State Fault Refusal := .next (performDecF s)

end Sys2Proof.Machine
end

