-- ==== Sys2Proof/Machine/Load.lean ====
section
/-! DEFINITION. The transaction register loads SET_DIR, SET_ADDR, SET_VAL and SET_MTYPE
(43_session_and_load.md R91 to R94). -/

namespace Sys2Proof.Machine

/-- SET_DIR (R91). -/
def execSetDir (b : BitVec 1) (s : State) : Host.Outcome State Fault Refusal :=
  .next (complete { s with dir := b })

/-- SET_ADDR stores all 16 bits; an address above 0x7FFF is no error (R92). -/
def execSetAddr (imm16 : Word) (s : State) : Host.Outcome State Fault Refusal :=
  .next (complete { s with addr := imm16 })

/-- SET_VAL (R93). -/
def execSetVal (imm16 : Word) (s : State) : Host.Outcome State Fault Refusal :=
  .next (complete { s with value := imm16 })

/-- SET_MTYPE; every message type is legal (R94). -/
def execSetMtype (imm16 : Word) (s : State) : Host.Outcome State Fault Refusal :=
  .next (complete { s with mtype := imm16 })

end Sys2Proof.Machine
end

