-- ==== Sys2Proof/Machine/Session.lean ====
section
/-! DEFINITION. SET_FMT, ENCODE and DECODE (43_session_and_load.md R88 to R90). -/

namespace Sys2Proof.Machine

/-- SET_FMT sets the session's format once (R88). -/
def execSetFmt (b : BitVec 1) (s : State) : Host.Outcome State Fault Refusal :=
  .next (if s.fmtv = 1 then raise .formatLocked s else complete { s with fmt := b, fmtv := 1 })

/-- ENCODE encodes in the session's format (R89). -/
def execEncode (s : State) : Host.Outcome State Fault Refusal :=
  .next (if s.fmtv = 0 then raise .formatUnset s else if s.fmt = 0 then performEncC s else performEncF s)

/-- DECODE decodes in the session's format (R90). -/
def execDecode (s : State) : Host.Outcome State Fault Refusal :=
  .next (if s.fmtv = 0 then raise .formatUnset s else if s.fmt = 0 then performDecC s else performDecF s)

end Sys2Proof.Machine
end

