-- ==== Sys2Proof/Machine/Dispatch.lean ====
section
/-! DEFINITION. One arm per command of 30_encoding.md R55. -/

namespace Sys2Proof.Machine

/-- The meaning of a command. -/
def exec (i : Instr) (s : State) : Host.Outcome State Fault Refusal :=
  match i with
  | .nop => Sys2Proof.Machine.execNop s
  | .crcInit => Sys2Proof.Machine.execCrcInit s
  | .crcUpd imm16 => Sys2Proof.Machine.execCrcUpd imm16 s
  | .crcChk imm16 => Sys2Proof.Machine.execCrcChk imm16 s
  | .setDir b => Sys2Proof.Machine.execSetDir b s
  | .setAddr imm16 => Sys2Proof.Machine.execSetAddr imm16 s
  | .setVal imm16 => Sys2Proof.Machine.execSetVal imm16 s
  | .setMtype imm16 => Sys2Proof.Machine.execSetMtype imm16 s
  | .setFmt b => Sys2Proof.Machine.execSetFmt b s
  | .pktClr => Sys2Proof.Machine.execPktClr s
  | .pktPush imm8 => Sys2Proof.Machine.execPktPush imm8 s
  | .encC => Sys2Proof.Machine.execEncC s
  | .decC => Sys2Proof.Machine.execDecC s
  | .encF => Sys2Proof.Machine.execEncF s
  | .decF => Sys2Proof.Machine.execDecF s
  | .encode => Sys2Proof.Machine.execEncode s
  | .decode => Sys2Proof.Machine.execDecode s

end Sys2Proof.Machine
end

