-- ==== Sys2Proof/Machine/Command.lean ====
section
/-! DEFINITION. A command word presented on the command port (30_encoding.md R52, R56), an input of the host, and the
result of a list of words (10_state.md R26). -/

namespace Sys2Proof.Machine

/-- One command word: the command it decodes to, or ILLEGAL_COMMAND raised and nothing else (R56, R100). -/
def execWord (w : CommandWord) (s : State) : Host.Outcome State Fault Refusal :=
  match Sys2Proof.decode w with
  | .ok i => exec i s
  | .error _ => .next (raise .illegalCommand s)

/-- One input of the host: a command word, or reset (R111). -/
def execInput (x : Input) (s : State) : Host.Outcome State Fault Refusal :=
  match x with
  | .command w => execWord w s
  | .reset => .next (applyReset s)

/-- The index moves on after the input, a command that raised included (R25). -/
def advanceOutcome (o : Host.Outcome State Fault Refusal) : Host.Outcome State Fault Refusal :=
  match o with
  | .next t => .next (advance t)
  | .fault r => .fault r
  | .refused r => .refused r

/-- The result of a list of command words from a start state (R26). -/
def execWords : List CommandWord → State → Host.Outcome State Fault Refusal
  | [], s => .next s
  | w :: ws, s =>
    match execWord w s with
    | .next t => execWords ws t
    | .fault r => .fault r
    | .refused r => .refused r

/-- A program placed at the command port, the index at 0 (00_scope.md R15, R25). -/
def loadProgram (ws : List CommandWord) (s : State) : State :=
  { s with inputs := ws.map .command, index := 0 }

end Sys2Proof.Machine
end

