-- ==== Sys2Proof/Machine/Step.lean ====
section
/-! DEFINITION. One step: the execution of one input of the host, atomically (20_memory.md R45), and how a word is
placed so that the next step runs it. -/

namespace Sys2Proof.Machine

/-- One step. With nothing presented the block waits and holds its state (20_memory.md R47, 60_exceptions.md R110):
DEDUCED, safe (log entry 2). -/
def step (s : State) : Host.Outcome State Fault Refusal :=
  match fetch s with
  | none => .next s
  | some x => advanceOutcome (execInput x s)

/-- `s` with a table row's word presented next, at the index `step` reads; nothing else is changed
(DESIGN CHOICE, log entry 9). -/
def State.withFetchWord (s : State) (nbits w : Nat) : State :=
  { s with inputs := placeInput s.inputs s.index (.command (Sys2Proof.tableWord nbits w)) }

end Sys2Proof.Machine
end

