-- ==== Sys2Proof/Machine/Assembler.lean ====
section
/-! DEFINITION. The spec's assembly syntax and pseudo-instructions (30_encoding.md R62, R63), and what the host
presents for the two parameters the spec leaves open (92_eei_decisions.md D31, D32). Outside the block: nothing in
the machine uses this file. -/

namespace Sys2Proof.Machine

/-- `CRC_WORDS w0, ..., wn-1` (R63). -/
def crcWords (ws : List Word) : List Instr := .crcInit :: ws.map .crcUpd

/-- `PKT_LOAD b0, ..., bn-1` (R63). -/
def pktLoad (bs : List Byte) : List Instr := .pktClr :: bs.map .pktPush

/-- `SET_TXN d, a, v` (R63). -/
def setTxn (d : BitVec 1) (a v : Word) : List Instr := [.setDir d, .setAddr a, .setVal v]

/-- The format command with which the host begins a session of a product class (R114, D31). -/
def openSession (productClass : Nat) : Instr := .setFmt (Config.productFormat productClass)

/-- The loads the host gives before it encodes a Read (R76, R114, D32). -/
def loadRead (a : Word) : List Instr := setTxn (directionBit .read) a Config.readValueWord

/-- The word for a line: `(OP << 24) | zext_32(operand)` (R62). -/
def asmWord (m : Mnemonic) (operand : Nat) : CommandWord :=
  (m.op.setWidth 32 <<< 24) ||| BitVec.ofNat 32 operand

/-- The words of a line; `none` where the assembler refuses it (R62). What is refused besides an
operand that does not fit, a pseudo-instruction as a whole among it, is a DESIGN CHOICE (log entry 6). -/
def assembleLine (l : AsmLine) : Option (List CommandWord) :=
  if l.wf then
    match l with
    | .command m o => some [asmWord m (o.getD 0)]
    | .word w => some [BitVec.ofNat 32 w]
    | .crcWords ws => some (asmWord .crcInit 0 :: ws.map (asmWord .crcUpd))
    | .pktLoad bs => some (asmWord .pktClr 0 :: bs.map (asmWord .pktPush))
    | .setTxn d a v => some [asmWord .setDir d, asmWord .setAddr a, asmWord .setVal v]
  else none

/-- The characters between the parts of a line. DESIGN CHOICE (log entry 6). -/
def isBlank (c : Char) : Bool := c = ' ' || c = '\t' || c = '\r'

/-- A line without the blanks at its two ends. -/
def trimBlanks (cs : List Char) : List Char := ((cs.dropWhile isBlank).reverse.dropWhile isBlank).reverse

/-- The parts of a text between occurrences of a separator. -/
def splitAtChar (sep : Char) : List Char → List (List Char)
  | [] => [[]]
  | c :: cs =>
    match splitAtChar sep cs with
    | [] => [[c]]
    | p :: ps => if c = sep then [] :: p :: ps else (c :: p) :: ps

/-- The value of a digit, `none` for another character. -/
def digitValue (c : Char) : Option Nat :=
  if '0'.toNat ≤ c.toNat ∧ c.toNat ≤ '9'.toNat then some (c.toNat - '0'.toNat)
  else if 'A'.toNat ≤ c.toNat ∧ c.toNat ≤ 'F'.toNat then some (c.toNat - 'A'.toNat + 10)
  else if 'a'.toNat ≤ c.toNat ∧ c.toNat ≤ 'f'.toNat then some (c.toNat - 'a'.toNat + 10)
  else none

/-- Digits in a base, read on from `acc`. -/
def parseDigits (base : Nat) : Nat → List Char → Option Nat
  | acc, [] => some acc
  | acc, c :: cs =>
    match digitValue c with
    | some d => if d < base then parseDigits base (acc * base + d) cs else none
    | none => none

/-- A hex literal `0x...` or a decimal literal (R62). -/
def parseNumber : List Char → Option Nat
  | '0' :: 'x' :: d :: ds => parseDigits 16 0 (d :: ds)
  | d :: ds => parseDigits 10 0 (d :: ds)
  | [] => none

/-- Several literals. -/
def parseNumbers : List (List Char) → Option (List Nat)
  | [] => some []
  | a :: as =>
    match parseNumber a, parseNumbers as with
    | some v, some vs => some (v :: vs)
    | _, _ => none

/-- The mnemonics of R55 as they are written. -/
def mnemonicText : Mnemonic → List Char
  | .nop => ['N', 'O', 'P']
  | .crcInit => ['C', 'R', 'C', '_', 'I', 'N', 'I', 'T']
  | .crcUpd => ['C', 'R', 'C', '_', 'U', 'P', 'D']
  | .crcChk => ['C', 'R', 'C', '_', 'C', 'H', 'K']
  | .setDir => ['S', 'E', 'T', '_', 'D', 'I', 'R']
  | .setAddr => ['S', 'E', 'T', '_', 'A', 'D', 'D', 'R']
  | .setVal => ['S', 'E', 'T', '_', 'V', 'A', 'L']
  | .setMtype => ['S', 'E', 'T', '_', 'M', 'T', 'Y', 'P', 'E']
  | .setFmt => ['S', 'E', 'T', '_', 'F', 'M', 'T']
  | .pktClr => ['P', 'K', 'T', '_', 'C', 'L', 'R']
  | .pktPush => ['P', 'K', 'T', '_', 'P', 'U', 'S', 'H']
  | .encC => ['E', 'N', 'C', '_', 'C']
  | .decC => ['D', 'E', 'C', '_', 'C']
  | .encF => ['E', 'N', 'C', '_', 'F']
  | .decF => ['D', 'E', 'C', '_', 'F']
  | .encode => ['E', 'N', 'C', 'O', 'D', 'E']
  | .decode => ['D', 'E', 'C', 'O', 'D', 'E']

/-- The mnemonic a text names. -/
def mnemonicOfText (cs : List Char) : Option Mnemonic := Mnemonic.all.find? fun m => mnemonicText m = cs

/-- A line from its first word and its arguments; `.word` takes `0x` and eight hex digits (R62, R63). -/
def parseParts (name : List Char) (args : List (List Char)) : Option AsmLine :=
  if name = ['.', 'w', 'o', 'r', 'd'] then
    match args with
    | ['0' :: 'x' :: ds] => if ds.length = 8 then (parseDigits 16 0 ds).map .word else none
    | _ => none
  else if name = ['C', 'R', 'C', '_', 'W', 'O', 'R', 'D', 'S'] then (parseNumbers args).map .crcWords
  else if name = ['P', 'K', 'T', '_', 'L', 'O', 'A', 'D'] then (parseNumbers args).map .pktLoad
  else if name = ['S', 'E', 'T', '_', 'T', 'X', 'N'] then
    match parseNumbers args with
    | some [d, a, v] => some (.setTxn d a v)
    | _ => none
  else
    match mnemonicOfText name, parseNumbers args with
    | some m, some [] => some (.command m none)
    | some m, some [v] => some (.command m (some v))
    | _, _ => none

/-- One line of text: `;` starts a comment; a line with nothing before it has no command (`some none`); `none`
where the line is refused: one that is not of the syntax of R62 and R63 is refused (DESIGN CHOICE, log entry 6). -/
def parseLine (cs : List Char) : Option (Option AsmLine) :=
  let line := trimBlanks (cs.takeWhile (· ≠ ';'))
  if line = [] then some none
  else
    let rest := trimBlanks (line.dropWhile (!isBlank ·))
    let args := if rest = [] then [] else (splitAtChar ',' rest).map trimBlanks
    (parseParts (line.takeWhile (!isBlank ·)) args).map some

/-- The words of a text's lines in order (R62). DESIGN CHOICE: a text with a line that is refused has no words at all;
R62 says only that the assembler refuses the operand. Unsafe for claims about text (log entry 6). -/
def assembleLines : List (List Char) → Option (List CommandWord)
  | [] => some []
  | l :: ls =>
    match parseLine l, assembleLines ls with
    | some none, some ws => some ws
    | some (some a), some ws => (assembleLine a).map (· ++ ws)
    | _, _ => none

/-- A program's text, one command per line, as command words (R62); all of it or none, as `assembleLines` chooses. -/
def assemble (text : List Char) : Option (List CommandWord) := assembleLines (splitAtChar '\n' text)

end Sys2Proof.Machine
end

