-- ==== Sys2Proof/Safety.lean ====
section
/-! DEFINITION. What the statements say of runs: the invariant of the machine, sessions, and states that agree but for
some registers. -/

namespace Sys2Proof.Machine

/-- The invariant: status code 7 is never written (10_state.md R29, 60_exceptions.md R98); FMT is 0 until the session's
format has been set (R28, R88, R111); the command index is within the list (R25). -/
structure Inv (s : State) : Prop where
  err_legal : s.err ≠ 7
  unset_format : s.fmtv = 0 → s.fmt = 0
  index_bound : s.index ≤ s.inputs.length

/-- The host presents the word `w` next. -/
abbrev Presents (s : State) (w : CommandWord) : Prop := fetch s = some (.command w)

/-- None of the next `n` inputs is a reset: the `n` steps lie within one session (70_reset_and_hazards.md R113). -/
abbrev WithinSession (s : State) (n : Nat) : Prop := ∀ k, k < n → s.inputs[s.index + k]? ≠ some .reset

/-- Two states with the same block registers (R18); what the host has to present may differ (R19). -/
abbrev SameBlock (s t : State) : Prop := t = { s with inputs := t.inputs, index := t.index }

/-- The result of a list of commands. -/
def execList : List Instr → State → Host.Outcome State Fault Refusal
  | [], s => .next s
  | i :: is, s =>
    match exec i s with
    | .next t => execList is t
    | .fault r => .fault r
    | .refused r => .refused r

/-- A command's encoding, as its rule and R54 give it: the words `base | operand` with an operand of `n` bits are
the command, and every other word with the same `OP` raises ILLEGAL_COMMAND (4) and changes nothing else
(30_encoding.md R55, R56). Class N has `n = 0`. -/
def EncodedAs (n : Nat) (base : CommandWord) (mk : BitVec n → Instr) : Prop :=
  (∀ operand, Sys2Proof.decode (base ||| operand.setWidth 32) = .ok (mk operand)) ∧
  ∀ w s, w.extractLsb' 24 8 = base.extractLsb' 24 8 → (∀ operand : BitVec n, w ≠ base ||| operand.setWidth 32) →
    execWord w s = .next { s with err := 4 }

/-- A byte sequence with its bit `n` flipped: bit `n % 8` of byte `n / 8`. -/
def flipBit (n : Nat) (bs : List Byte) : List Byte := bs.modify (n / 8) (· ^^^ (1#8 <<< (n % 8)))

/-- The reflected byte-wise CRC update with which R69 law 5 compares `crc_word`: XOR a byte into bits 7:0, then eight
shift steps. -/
def crcByte (c : Word) (b : Byte) : Word := crcStep^[8] (c ^^^ b.setWidth 16)

end Sys2Proof.Machine
end

