-- ==== Sys2Proof/Certificates/Slice0/Obligations.lean ====
section
/-! DEFINITION. The statements for the provers, from the numbered rules of spec/. -/

open Sys2Proof Sys2Proof.Machine

/-! ### Encoding (30_encoding.md) -/

/-- A word decodes to a command exactly when it is that command's word (R54, R55, R56, R62): no bit of a command or of
its word is lost. -/
def Obligations.DecodeAndEncodeAreInverse : Prop :=
  ∀ (i : Instr) (w : CommandWord), decode w = .ok i ↔ encode i = w

/-- R56 and R100: a word that matches a row of R55 is that command; every other word raises ILLEGAL_COMMAND (4) and
changes nothing else; and a word matches no row exactly for cause (a), its `OP` is in no row, or (b), a bit that the
row of its `OP` requires to be zero is 1. -/
def Obligations.EveryWordIsItsRowsCommandOrIllegal : Prop :=
  ∀ (w : CommandWord) (s : State),
    (∀ r ∈ opcodeTable, r.selectedBy w → ∃ i, decode w = .ok i ∧ i.mnemonic = r.mnemonic ∧ execWord w s = exec i s) ∧
    ((∀ r ∈ opcodeTable, ¬ r.selectedBy w) → execWord w s = .next { s with err := 4 }) ∧
    ((∀ r ∈ opcodeTable, ¬ r.selectedBy w) ↔
      (∀ m : Mnemonic, m.op ≠ w.extractLsb' 24 8) ∨
      ∃ m : Mnemonic, m.op = w.extractLsb' 24 8 ∧
        (w.extractLsb' 16 8 ≠ 0 ∨ 2 ^ m.operandClass.bits ≤ (w.extractLsb' 0 16).toNat))

/-- After R55: the seventeen rows as the spec writes them, and a word is a row's command exactly where it selects the row.
Each `match` carries its `OP` in bits 31:24, every mask covers those bits, and so no two rows overlap (the spec's own
inference from the table, 30_encoding.md section 3). -/
def Obligations.OpcodeRowsAreTheSpecsAndDoNotOverlap : Prop :=
  opcodeTable.map (fun r => (r.mnemonic, r.mnemonic.op, r.mnemonic.operandClass, r.pattern, r.mask)) =
    [(.nop, 0x00, .n, 0x00000000, 0xFFFFFFFF), (.crcInit, 0x01, .n, 0x01000000, 0xFFFFFFFF),
     (.crcUpd, 0x02, .i16, 0x02000000, 0xFFFF0000), (.crcChk, 0x03, .i16, 0x03000000, 0xFFFF0000),
     (.setDir, 0x10, .i1, 0x10000000, 0xFFFFFFFE), (.setAddr, 0x11, .i16, 0x11000000, 0xFFFF0000),
     (.setVal, 0x12, .i16, 0x12000000, 0xFFFF0000), (.setMtype, 0x13, .i16, 0x13000000, 0xFFFF0000),
     (.setFmt, 0x14, .i1, 0x14000000, 0xFFFFFFFE), (.pktClr, 0x20, .n, 0x20000000, 0xFFFFFFFF),
     (.pktPush, 0x21, .i8, 0x21000000, 0xFFFFFF00), (.encC, 0x30, .n, 0x30000000, 0xFFFFFFFF),
     (.decC, 0x31, .n, 0x31000000, 0xFFFFFFFF), (.encF, 0x32, .n, 0x32000000, 0xFFFFFFFF),
     (.decF, 0x33, .n, 0x33000000, 0xFFFFFFFF), (.encode, 0x34, .n, 0x34000000, 0xFFFFFFFF),
     (.decode, 0x35, .n, 0x35000000, 0xFFFFFFFF)] ∧
  (∀ r ∈ opcodeTable, r.mask &&& 0xFF000000 = 0xFF000000 ∧ r.pattern.extractLsb' 24 8 = r.mnemonic.op) ∧
  (∀ (w : CommandWord), ∀ r ∈ opcodeTable, ∀ q ∈ opcodeTable, r.selectedBy w → q.selectedBy w → r = q) ∧
  ∀ (w : CommandWord), ∀ r ∈ opcodeTable, r.selectedBy w ↔ ∃ i, decode w = .ok i ∧ i.mnemonic = r.mnemonic

/-- Words written out bit by bit from R52 and R55, one or more of every family, decode to the commands they stand for. -/
def Obligations.WrittenOutWordsDecode : Prop :=
  decode 0b00000000_00000000_00000000_00000000 = .ok .nop ∧
  decode 0b00000010_00000000_10101010_01010101 = .ok (.crcUpd 0xAA55) ∧
  decode 0b00000011_00000000_01011000_00010011 = .ok (.crcChk 0x5813) ∧
  decode 0b00010000_00000000_00000000_00000001 = .ok (.setDir 1) ∧
  decode 0b00010001_00000000_00010000_00000000 = .ok (.setAddr 0x1000) ∧
  decode 0b00010100_00000000_00000000_00000001 = .ok (.setFmt 1) ∧
  decode 0b00100001_00000000_00000000_10101010 = .ok (.pktPush 0xAA) ∧
  decode 0b00110001_00000000_00000000_00000000 = .ok .decC ∧
  decode 0b00110010_00000000_00000000_00000000 = .ok .encF ∧
  decode 0b00110101_00000000_00000000_00000000 = .ok .decode

/-- R57: a word whose `OP` is reserved is an illegal word; and no word but `NOP`, 0x00000000, acts as a no-op, which
still writes `STATUS.ERR <- OK`. -/
def Obligations.ReservedOpcodesAreIllegalAndNopIsTheOnlyNoOp : Prop :=
  ∀ w : CommandWord,
    (let op := (w.extractLsb' 24 8).toNat
     (0x04 ≤ op ∧ op ≤ 0x0F) ∨ (0x15 ≤ op ∧ op ≤ 0x1F) ∨ (0x22 ≤ op ∧ op ≤ 0x2F) ∨ (0x36 ≤ op ∧ op ≤ 0xFF) →
       ∀ s, execWord w s = .next { s with err := 4 }) ∧
    ((∀ s, execWord w s = .next { s with err := 0 }) ↔ w = 0x00000000)

/-- R54: a word with the `OP` of a command is that command where `RSV` and the bits of `IMM16` above its class's operand
are zero, and its operand is then `IMM16` as it stands, zero-extended from the class's bits; where one of them is 1 it is
an illegal word. -/
def Obligations.OperandIsTheZeroExtendedLowField : Prop :=
  OperandClass.n.bits = 0 ∧ OperandClass.i1.bits = 1 ∧ OperandClass.i8.bits = 8 ∧ OperandClass.i16.bits = 16 ∧
  ∀ (w : CommandWord) (m : Mnemonic), m.op = w.extractLsb' 24 8 →
    ((w.extractLsb' 16 8 = 0 ∧ ∀ k, m.operandClass.bits ≤ k → (w.extractLsb' 0 16).getLsbD k = false) →
      ∃ i, decode w = .ok i ∧ i.mnemonic = m ∧ operandOf i = w.extractLsb' 0 16) ∧
    (¬ (w.extractLsb' 16 8 = 0 ∧ ∀ k, m.operandClass.bits ≤ k → (w.extractLsb' 0 16).getLsbD k = false) →
      ∀ s, execWord w s = .next { s with err := 4 })

/-! ### Steps and programs (10_state.md R25, R26; 20_memory.md R45) -/

/-- A step runs the decoded command: where the next word presented decodes to `i`, the step is `exec i`, and the
command index moves on by exactly 1 (after R25; that the index stands in State is the model's choice, log entry 1). -/
def Obligations.StepRunsTheDecodedCommand : Prop :=
  ∀ (s : State) (w : CommandWord) (i : Instr), Presents s w → decode w = .ok i →
    ∃ t, exec i s = .next t ∧ step s = .next { t with index := s.index + 1 } ∧
      t.index = s.index ∧ t.inputs = s.inputs

/-- The steps that run no command: an illegal word raises ILLEGAL_COMMAND and the index still moves on by 1 (R25, R100);
with nothing presented the block waits (the model's choice, log entry 2); a reset sets every block register and is
passed over (the model's choice of where a reset stands, log entry 8). -/
def Obligations.StepOfIllegalWordOfResetAndOfNothing : Prop :=
  ∀ s : State,
    (∀ w e, Presents s w → decode w = .error e → step s = .next { s with err := 4, index := s.index + 1 }) ∧
    (fetch s = none → step s = .next s) ∧
    (fetch s = some .reset →
      step s = .next { State.reset with inputs := s.inputs, index := s.index + 1 })

/-- A program of any words, illegal ones included, has a result from every state, the words' meanings taken one after
another (the spec's own inference, R26); the machine with that program at its command port is in that state after as
many steps as there are words, and stays there (a program as a list in State and the waiting step are the model's
choices, log entries 1, 2 and 9). -/
def Obligations.ProgramHasExactlyOneResult : Prop :=
  ∀ (ws : List CommandWord) (s : State), ∃ t, execWords ws s = .next t ∧
    ∀ n, core.run (ws.length + n) (loadProgram ws s) =
      .next { t with inputs := ws.map .command, index := ws.length }

/-- After R45 and R13: every word either completes with `OK` or raises a code and writes nothing but STATUS.ERR. -/
def Obligations.CommandCompletesOrWritesOnlyErr : Prop :=
  ∀ (w : CommandWord) (s : State), ∃ t, execWord w s = .next t ∧
    (t.err = 0 ∨ (t.err ≠ 0 ∧ t.err ≠ 7 ∧ t = { s with err := t.err }))

/-- R105: no error stops the block: after any status code every word has the result it would have after any other (so a
code is not sticky, R104), and an error never sets or clears FMTV. -/
def Obligations.NoErrorStopsTheBlock : Prop :=
  ∀ (w : CommandWord) (s : State) (e : BitVec 3), ∃ t,
    execWord w s = .next t ∧ execWord w { s with err := e } = .next t ∧ (t.err ≠ 0 → t.fmtv = s.fmtv)

/-- R27: no command reads a flag as an input; every command writes ERR, and one that raises writes nothing else; only CRC_CHK writes MATCH, with 1 if CRC equals
its operand and otherwise 0, and an illegal word, of CRC_CHK's `OP` too, leaves MATCH as it was. -/
def Obligations.FlagsAreWrittenByRuleAndNeverRead : Prop :=
  ∀ (w : CommandWord) (s : State) (e : BitVec 3) (m : BitVec 1), ∃ t,
    execWord w s = .next t ∧ (t.err = 0 ∨ t = { s with err := t.err }) ∧
    (∀ imm16, decode w = .ok (.crcChk imm16) →
      t.matched = (if s.crc = imm16 then 1 else 0) ∧ execWord w { s with err := e, matched := m } = .next t) ∧
    ((∀ imm16, decode w ≠ .ok (.crcChk imm16)) →
      t.matched = s.matched ∧ execWord w { s with err := e, matched := m } = .next { t with matched := m })

/-! ### State: who writes and who reads (10_state.md) -/

/-- After the "written by" column of R18, by commands: a register that a command changes is written by one of the commands
named for it (MTYPE by DECODE only in a framed session). No command changes what the host presents or the command index,
which the spec puts outside the block (after R25, R50); that they stand in State is the model's choice (log entry 1). -/
def Obligations.RegistersAreWrittenOnlyByTheCommandsNamed : Prop :=
  ∀ (i : Instr) (s t : State), exec i s = .next t →
    (t.crc ≠ s.crc → i = .crcInit ∨ ∃ v, i = .crcUpd v) ∧
    (t.fmt ≠ s.fmt ∨ t.fmtv ≠ s.fmtv → ∃ b, i = .setFmt b) ∧
    (t.matched ≠ s.matched → ∃ v, i = .crcChk v) ∧
    (t.dir ≠ s.dir → (∃ b, i = .setDir b) ∨ i = .decC ∨ i = .decF ∨ i = .decode) ∧
    (t.addr ≠ s.addr → (∃ v, i = .setAddr v) ∨ i = .decC ∨ i = .decF ∨ i = .decode) ∧
    (t.value ≠ s.value → (∃ v, i = .setVal v) ∨ i = .decC ∨ i = .decF ∨ i = .decode) ∧
    (t.mtype ≠ s.mtype → (∃ v, i = .setMtype v) ∨ i = .decF ∨ (i = .decode ∧ s.fmt = 1)) ∧
    (t.pkt ≠ s.pkt → (∃ b, i = .pktPush b) ∨ i = .encC ∨ i = .encF ∨ i = .encode) ∧
    (t.plen ≠ s.plen → i = .pktClr ∨ (∃ b, i = .pktPush b) ∨ i = .encC ∨ i = .encF ∨ i = .encode) ∧
    t.inputs = s.inputs ∧ t.index = s.index

/-- R19, R86, R87 (D14): the codec commands neither read nor write the CRC register. -/
def Obligations.CodecCommandsLeaveTheCrcRegisterAlone : Prop :=
  ∀ i ∈ [Instr.encC, .decC, .encF, .decF, .encode, .decode], ∀ (s : State) (c : Word), ∃ t,
    exec i s = .next t ∧ t.crc = s.crc ∧ exec i { s with crc := c } = .next { t with crc := c }

/-- R24: the compact format has no message type: ENC_C does not read MTYPE and DEC_C does not write it; nor does
ENCODE or DECODE in a compact session. -/
def Obligations.CompactCommandsIgnoreTheMessageType : Prop :=
  ∀ (i : Instr) (s : State) (mt : Word),
    i = .encC ∨ i = .decC ∨ ((i = .encode ∨ i = .decode) ∧ s.fmt = 0) →
    ∃ t, exec i s = .next t ∧ t.mtype = s.mtype ∧ exec i { s with mtype := mt } = .next { t with mtype := mt }

/-- R37: no decode command reads the bytes that are not part of the packet: with the same bytes `PKT[0..PLEN-1]`, a
decode command has the same result whatever the other bytes are. -/
def Obligations.DecodeReadsOnlyThePacket : Prop :=
  ∀ (i : Instr) (s : State) (pkt : Vector Byte 10), i = .decC ∨ i = .decF ∨ i = .decode →
    packetBytes { s with pkt := pkt } = packetBytes s →
    ∃ t, exec i s = .next t ∧ t.pkt = s.pkt ∧ exec i { s with pkt := pkt } = .next { t with pkt := pkt }

/-- The invariant holds after reset: the clauses on ERR and FMT by the reset values of R18; the clause on the command index
by the model's choice of the two fields `inputs` and `index` and of the empty list at reset (log entry 1). -/
def Obligations.InvariantHoldsAfterReset : Prop := Inv State.reset

/-- Every step keeps the invariant: ERR is never 7 (after R98), FMT is 0 until it has been set (after R28, R88), and the
command index is within the list (the model's choice, log entry 1). -/
def Obligations.EveryStepKeepsTheInvariant : Prop :=
  ∀ s t : State, Inv s → step s = .next t → Inv t

/-- Within a session the wire format, once set, is fixed: after any steps that are no reset, FMTV is still 1 and FMT the
same; and a reset, from any state, clears it together with every other register (after R88, R113). That the inputs stand
in a list and a reset is one of them is the model's choice (log entries 1 and 8). -/
def Obligations.FormatIsFixedForTheSession : Prop :=
  (∀ (n : Nat) (s : State), s.fmtv = 1 → WithinSession s n →
    ∃ t, core.run n s = .next t ∧ t.fmtv = 1 ∧ t.fmt = s.fmt) ∧
  ∀ s : State, fetch s = some .reset → ∃ t, core.run 1 s = .next t ∧ SameBlock State.reset t

/-- The value of every register after reset, from any state; and the block then waits, nothing running on its own
(after R111). That a reset is an input and that waiting is a step which changes nothing are the model's choice (log
entries 8 and 2). -/
def Obligations.ResetSetsEveryRegister : Prop :=
  (∀ s : State, ∃ t, execInput .reset s = .next t ∧
    t.crc = 0xFFFF ∧ t.fmt = 0 ∧ t.fmtv = 0 ∧ t.err = 0 ∧ t.matched = 0 ∧ t.dir = 0 ∧
    t.addr = 0x0000 ∧ t.value = 0x0000 ∧ t.mtype = 0x0000 ∧ (∀ k, pktByte t k = 0x00) ∧ t.plen = 0 ∧
    SameBlock State.reset t) ∧
  ∀ n, core.run n State.reset = .next State.reset

/-! ### The read port (10_state.md R28, R29, R34, R35) -/

/-- R34 and R35: what every read index returns, the reserved indices 0x12 to 0x1F 0x0000. -/
def Obligations.ReadPortTable : Prop :=
  ∀ s : State,
    rd 0x00 s = (s.matched.setWidth 16 <<< 4) ||| s.err.setWidth 16 ∧
    rd 0x01 s = (s.fmtv.setWidth 16 <<< 1) ||| s.fmt.setWidth 16 ∧
    rd 0x02 s = s.crc ∧ rd 0x03 s = s.dir.setWidth 16 ∧ rd 0x04 s = s.addr ∧ rd 0x05 s = s.value ∧
    rd 0x06 s = s.mtype ∧ rd 0x07 s = s.plen.setWidth 16 ∧
    (∀ k : Fin 10, rd (BitVec.ofNat 5 (0x08 + k)) s = (pktByte s k).setWidth 16) ∧
    ∀ idx : ReadIndex, 0x12 ≤ idx.toNat → rd idx s = 0x0000

/-- The fields of STATUS (R29) and CTRL (R28) as the read port shows them; every reserved bit reads 0. -/
def Obligations.StatusAndCtrlFields : Prop :=
  ∀ s : State,
    (rd 0x00 s).extractLsb' 0 3 = s.err ∧ (rd 0x00 s).getLsbD 3 = false ∧
    (rd 0x00 s).extractLsb' 4 1 = s.matched ∧ (∀ k, 5 ≤ k → (rd 0x00 s).getLsbD k = false) ∧
    (rd 0x01 s).extractLsb' 0 1 = s.fmt ∧ (rd 0x01 s).extractLsb' 1 1 = s.fmtv ∧
    ∀ k, 2 ≤ k → (rd 0x01 s).getLsbD k = false

/-- R18, R33: the host sees the whole block through the read port: two states that read the same at every index have
the same registers. -/
def Obligations.ReadPortShowsEveryRegister : Prop :=
  ∀ s t : State, (∀ idx, rd idx s = rd idx t) ↔ SameBlock s t

/-! ### The Checksum Engine (40_checksum.md) -/

/-- R64 to R67: a shift step; a word folded by one XOR and sixteen shift steps; `compute` from the seed with no final
XOR, the words in order; `verify`. -/
def Obligations.CrcFunctions : Prop :=
  (∀ c : Word, crcStep c = if c.getLsbD 0 = true then (c >>> 1) ^^^ 0x8408 else c >>> 1) ∧
  (∀ c w : Word, crcWord c w = crcStep^[16] (c ^^^ w)) ∧
  compute [] = 0xFFFF ∧ (∀ (ws : List Word) (w : Word), compute (ws ++ [w]) = crcWord (compute ws) w) ∧
  ∀ (ws : List Word) (e : Word), verify ws e = true ↔ compute ws = e

/-- Linearity over XOR, the zero fixed point, and self-cancellation (the spec's own inference from R64 to R66, R69 laws 1
to 3). -/
def Obligations.CrcIsLinearAndCancelsItself : Prop :=
  (∀ a b : Word, crcStep (a ^^^ b) = crcStep a ^^^ crcStep b) ∧ crcStep 0 = 0 ∧
  (∀ c₁ c₂ w₁ w₂ : Word, crcWord (c₁ ^^^ c₂) (w₁ ^^^ w₂) = crcWord c₁ w₁ ^^^ crcWord c₂ w₂) ∧
  crcWord 0 0 = 0 ∧ (∀ c : Word, crcWord c c = 0) ∧
  ∀ ws : List Word, compute (ws ++ [compute ws]) = 0

/-- Flipping one bit of one word changes `compute`, for lists of any length (the spec infers it from R64 to R66 for lists
of four words, R69 law 4). -/
def Obligations.CrcSeesEverySingleBitFlip : Prop :=
  ∀ (ws : List Word) (j b : Nat), j < ws.length → b < 16 →
    compute (ws.modify j (· ^^^ (1#16 <<< b))) ≠ compute ws

/-- The spec's own inference from R64 to R66, R69 law 5: folding a word is the reflected byte-wise update on its low byte and then its high byte, so `compute` is
the byte-wise CRC, seed 0xFFFF, over the words' little-endian bytes. -/
def Obligations.CrcIsByteWiseOverLittleEndianBytes : Prop :=
  (∀ c w : Word, crcWord c w = crcByte (crcByte c (w.extractLsb' 0 8)) (w.extractLsb' 8 8)) ∧
  ∀ ws : List Word, compute ws = (ws.flatMap le16).foldl crcByte 0xFFFF

/-- R70: CRC_INIT loads the seed and changes nothing else but ERR; its encoding. -/
def Obligations.CrcInitLoadsTheSeed : Prop :=
  EncodedAs 0 0x01000000 (fun _ => .crcInit) ∧
  ∀ s : State, exec .crcInit s = .next { s with crc := 0xFFFF, err := 0 }

/-- R71: CRC_UPD folds its operand into CRC and changes nothing else but ERR; its encoding and corner cases. -/
def Obligations.CrcUpdFoldsItsOperand : Prop :=
  EncodedAs 16 0x02000000 .crcUpd ∧
  (∀ (s : State) (imm16 : Word),
    exec (.crcUpd imm16) s = .next { s with crc := crcStep^[16] (s.crc ^^^ imm16), err := 0 } ∧
    (imm16 = s.crc → exec (.crcUpd imm16) s = .next { s with crc := 0, err := 0 })) ∧
  ∀ s : State, s.crc = 0xFFFF → exec (.crcUpd 0x0000) s = .next { s with crc := 0xF0B8, err := 0 } ∧
    exec (.crcUpd 0xAA55) s = .next { s with crc := 0x57A7, err := 0 }

/-- R72: CRC_CHK writes MATCH by comparing CRC with its operand, reports OK in both outcomes and changes nothing else, and
so is `verify` of the words folded since CRC_INIT; its encoding and corner cases. -/
def Obligations.CrcChkComparesWithTheAccumulator : Prop :=
  EncodedAs 16 0x03000000 .crcChk ∧
  (∀ (s : State) (imm16 : Word),
    exec (.crcChk imm16) s = .next { s with matched := if s.crc = imm16 then 1 else 0, err := 0 }) ∧
  (∀ s : State, execList [.crcInit, .crcChk 0xFFFF] s = .next { s with crc := 0xFFFF, matched := 1, err := 0 }) ∧
  (∀ (ws : List Word) (e : Word) (s : State), execList (crcWords ws ++ [.crcChk e]) s =
    .next { s with crc := compute ws, matched := if verify ws e then 1 else 0, err := 0 }) ∧
  ∀ (ws : List Word) (s : State),
    execList (crcWords ws ++ [.crcUpd (compute ws), .crcChk 0x0000]) s =
      .next { s with crc := 0, matched := 1, err := 0 }

/-- CRC_INIT and one CRC_UPD per word leave `compute` of the words in CRC and touch nothing else but ERR; a longer list
goes on from where a shorter one stopped (the spec derives the first, in R30, from R70 and R71). -/
def Obligations.StreamedChecksumIsCompute : Prop :=
  (∀ (ws : List Word) (s : State), execList (crcWords ws) s = .next { s with crc := compute ws, err := 0 }) ∧
  ∀ (ws vs : List Word) (s : State), s.crc = compute ws → s.err = 0 →
    execList (vs.map .crcUpd) s = .next { s with crc := compute (ws ++ vs) }

/-! ### The compact codec (41_compact_codec.md) -/

/-- R58, R73: the address word has the direction in bit 15 and the address in bits 14:0; bit 15 of the address given
never reaches it. -/
def Obligations.AddressWordMasksTheAddress : Prop :=
  ∀ (d : BitVec 1) (a : Word),
    addrWord d a = (d.setWidth 16 <<< 15) ||| (a &&& 0x7FFF) ∧
    (addrWord d a).extractLsb' 15 1 = d ∧ (addrWord d a).extractLsb' 0 15 = a.extractLsb' 0 15 ∧
    addrWord d (a ^^^ 0x8000) = addrWord d a

/-- R59, R74, R75: the four bytes of a compact packet, and what decoding any four bytes gives; every other length is
InvalidLength. -/
def Obligations.CompactPacketLayout : Prop :=
  (∀ (d : BitVec 1) (a v : Word), encodeCompact d a v =
    [a.extractLsb' 0 8, d ++ a.extractLsb' 8 7, v.extractLsb' 0 8, v.extractLsb' 8 8]) ∧
  (∀ b0 b1 b2 b3 : Byte, decodeCompact [b0, b1, b2, b3] =
    .ok { dir := b1.extractLsb' 7 1, addr := b1.extractLsb' 0 7 ++ b0, value := b3 ++ b2 }) ∧
  ∀ bs : List Byte, bs.length ≠ 4 → decodeCompact bs = .error .invalidLength

/-- The round-trip laws of the compact format: a bijection between 4-byte sequences and the triples of direction, 15-bit
address and value (the spec's own inference from R73 to R75, R77). -/
def Obligations.CompactRoundTrip : Prop :=
  (∀ (d : BitVec 1) (a v : Word),
    decodeCompact (encodeCompact d a v) = .ok { dir := d, addr := a.extractLsb' 0 15, value := v }) ∧
  (∀ bs : List Byte, bs.length = 4 →
    ∃ r, decodeCompact bs = .ok r ∧ encodeCompact r.dir (r.addr.setWidth 16) r.value = bs) ∧
  ∀ bs : List Byte, bs.length ≠ 4 → decodeCompact bs = .error .invalidLength

/-- R78: ENC_C writes the four bytes of the compact packet to PKT[0..3], PLEN 4 and ERR OK, and nothing else: PKT[4..9]
keep their bytes. -/
def Obligations.EncCStoresTheCompactPacket : Prop :=
  EncodedAs 0 0x30000000 (fun _ => .encC) ∧
  ∀ s : State, ∃ t, exec .encC s = .next t ∧ t = { s with pkt := t.pkt, plen := 4, err := 0 } ∧
    [pktByte t 0, pktByte t 1, pktByte t 2, pktByte t 3] = encodeCompact s.dir s.addr s.value ∧
    ∀ k : Fin 10, 4 ≤ k → pktByte t k = pktByte s k

/-- R79: DEC_C with PLEN 4 writes DIR, ADDR (bit 15 zero) and VALUE from PKT[0..3], and nothing else but ERR; with any
other PLEN it raises INVALID_LENGTH (1) and writes nothing else. -/
def Obligations.DecCLoadsTheTransaction : Prop :=
  EncodedAs 0 0x31000000 (fun _ => .decC) ∧
  ∀ s : State,
    (s.plen = 4 → ∃ r, decodeCompact [pktByte s 0, pktByte s 1, pktByte s 2, pktByte s 3] = .ok r ∧
      exec .decC s = .next { s with dir := r.dir, addr := r.addr.setWidth 16, value := r.value, err := 0 }) ∧
    (s.plen ≠ 4 → exec .decC s = .next { s with err := 1 })

/-! ### The framed codec (42_framed_codec.md) -/

/-- R60, R80, R81: the ten bytes of a framed packet; decoding any ten bytes checks the CRC of the first four words, then
the header under FRAMED_HEADER_CHECK, and unpacks; every other length is InvalidLength. -/
def Obligations.FramedPacketLayout : Prop :=
  (∀ (mt : Word) (d : BitVec 1) (a v : Word),
    let c := compute [0xAA55, mt, addrWord d a, v]
    encodeFramed mt d a v =
      [0xAA, 0x55, mt.extractLsb' 8 8, mt.extractLsb' 0 8, d ++ a.extractLsb' 8 7, a.extractLsb' 0 8,
       v.extractLsb' 8 8, v.extractLsb' 0 8, c.extractLsb' 8 8, c.extractLsb' 0 8]) ∧
  (∀ (hc : Bool) (b0 b1 b2 b3 b4 b5 b6 b7 b8 b9 : Byte),
    decodeFramed hc [b0, b1, b2, b3, b4, b5, b6, b7, b8, b9] =
      if compute [b0 ++ b1, b2 ++ b3, b4 ++ b5, b6 ++ b7] ≠ b8 ++ b9 then .error .crcMismatch
      else if hc = true ∧ b0 ++ b1 ≠ (0xAA55 : Word) then .error .badHeader
      else .ok { mtype := b2 ++ b3, dir := b4.extractLsb' 7 1, addr := b4.extractLsb' 0 7 ++ b5, value := b6 ++ b7 }) ∧
  ∀ (hc : Bool) (bs : List Byte), bs.length ≠ 10 → decodeFramed hc bs = .error .invalidLength

/-- Decoding an encoded packet recovers its fields, the address cut to 15 bits, under either value of
FRAMED_HEADER_CHECK; every length but 10 is InvalidLength (the spec's own inference from R80 and R81, R85 laws 1 and
3). -/
def Obligations.FramedRoundTrip : Prop :=
  (∀ (hc : Bool) (mt : Word) (d : BitVec 1) (a v : Word), decodeFramed hc (encodeFramed mt d a v) =
    .ok { mtype := mt, dir := d, addr := a.extractLsb' 0 15, value := v }) ∧
  ∀ (hc : Bool) (bs : List Byte), bs.length ≠ 10 → decodeFramed hc bs = .error .invalidLength

/-- An encoded packet with any one of its 80 bits flipped decodes to CrcMismatch (the spec's own inference from R80 and
R81, R85 law 2). -/
def Obligations.FramedDecodeSeesEverySingleBitFlip : Prop :=
  ∀ (hc : Bool) (mt : Word) (d : BitVec 1) (a v : Word) (n : Nat), n < 80 →
    decodeFramed hc (flipBit n (encodeFramed mt d a v)) = .error .crcMismatch

/-- The spec's own inference from R80 and R81, R85 law 4: decoding gives BadHeader exactly for ten bytes with a consistent CRC and a wrong header, with
FRAMED_HEADER_CHECK true; of the ten-byte sequences exactly 2^64 pass the CRC check and 2^48 of those have the right
header. -/
def Obligations.FramedBadHeaderExactlyAndCounts : Prop :=
  (∀ (hc : Bool) (bs : List Byte), decodeFramed hc bs = .error .badHeader ↔
    hc = true ∧ ∃ w0 w1 w2 w3 : Word, w0 ≠ 0xAA55 ∧
      bs = be16 w0 ++ be16 w1 ++ be16 w2 ++ be16 w3 ++ be16 (compute [w0, w1, w2, w3])) ∧
  Nat.card { bs : List Byte // bs.length = 10 ∧ decodeFramed true bs ≠ .error .crcMismatch } = 2 ^ 64 ∧
  Nat.card { bs : List Byte // bs.length = 10 ∧ ∃ r, decodeFramed true bs = .ok r } = 2 ^ 48

/-- R86: ENC_F writes the ten bytes of the framed packet to PKT[0..9], PLEN 10 and ERR OK, and nothing else. -/
def Obligations.EncFStoresTheFramedPacket : Prop :=
  EncodedAs 0 0x32000000 (fun _ => .encF) ∧
  ∀ s : State, ∃ t, exec .encF s = .next t ∧ t = { s with pkt := t.pkt, plen := 10, err := 0 } ∧
    t.pkt.toList = encodeFramed s.mtype s.dir s.addr s.value

/-- R87: DEC_F with PLEN 10 and a good packet writes MTYPE, DIR, ADDR (bit 15 zero) and VALUE, and nothing else but ERR;
otherwise it raises INVALID_LENGTH (1), CRC_MISMATCH (2) or BAD_HEADER (3), the first that applies, and writes nothing
else. -/
def Obligations.DecFLoadsTheTransaction : Prop :=
  EncodedAs 0 0x33000000 (fun _ => .decF) ∧
  ∀ s : State,
    (s.plen ≠ 10 → exec .decF s = .next { s with err := 1 }) ∧
    (s.plen = 10 → decodeFramed true s.pkt.toList = .error .crcMismatch → exec .decF s = .next { s with err := 2 }) ∧
    (s.plen = 10 → decodeFramed true s.pkt.toList = .error .badHeader → exec .decF s = .next { s with err := 3 }) ∧
    ∀ r, s.plen = 10 → decodeFramed true s.pkt.toList = .ok r → exec .decF s =
      .next { s with mtype := r.mtype, dir := r.dir, addr := r.addr.setWidth 16, value := r.value, err := 0 }

/-! ### Session format, loads and the buffer (43_session_and_load.md) -/

/-- R88: the first SET_FMT of a session sets FMT and FMTV; every later one raises FORMAT_LOCKED (6) and writes nothing
else; no command clears FMTV or changes FMT then, and the explicit codec commands read neither. -/
def Obligations.SetFmtSetsTheFormatOnce : Prop :=
  EncodedAs 1 0x14000000 .setFmt ∧
  ∀ (s : State) (b : BitVec 1),
    (s.fmtv = 0 → exec (.setFmt b) s = .next { s with fmt := b, fmtv := 1, err := 0 }) ∧
    (s.fmtv = 1 → exec (.setFmt b) s = .next { s with err := 6 }) ∧
    (∀ i t, s.fmtv = 1 → exec i s = .next t → t.fmtv = 1 ∧ t.fmt = s.fmt) ∧
    ∀ i ∈ [Instr.encC, .decC, .encF, .decF], ∀ f v, ∃ t, exec i s = .next t ∧
      exec i { s with fmt := f, fmtv := v } = .next { t with fmt := f, fmtv := v }

/-- R89: ENCODE before SET_FMT raises FORMAT_UNSET (5) and writes nothing else; after it, ENCODE gives the next state of
ENC_C in a compact session and of ENC_F in a framed one. -/
def Obligations.EncodeFollowsTheSession : Prop :=
  EncodedAs 0 0x34000000 (fun _ => .encode) ∧
  ∀ s : State,
    (s.fmtv = 0 → exec .encode s = .next { s with err := 5 }) ∧
    (s.fmtv = 1 → s.fmt = 0 → ∃ t, exec .encode s = .next t ∧ exec .encC s = .next t ∧
      packetBytes t = encodeCompact s.dir s.addr s.value ∧ t = { s with pkt := t.pkt, plen := 4, err := 0 }) ∧
    (s.fmtv = 1 → s.fmt = 1 → ∃ t, exec .encode s = .next t ∧ exec .encF s = .next t ∧
      packetBytes t = encodeFramed s.mtype s.dir s.addr s.value ∧ t = { s with pkt := t.pkt, plen := 10, err := 0 })

/-- R90: DECODE before SET_FMT raises FORMAT_UNSET (5) and writes nothing else; after it, DECODE gives the next state of
DEC_C in a compact session and of DEC_F in a framed one, and never tries the other format. Where the packet is good it
loads the transaction. -/
def Obligations.DecodeFollowsTheSession : Prop :=
  EncodedAs 0 0x35000000 (fun _ => .decode) ∧
  ∀ s : State,
    (s.fmtv = 0 → exec .decode s = .next { s with err := 5 }) ∧
    (s.fmtv = 1 → s.fmt = 0 → ∃ t, exec .decode s = .next t ∧ exec .decC s = .next t) ∧
    (s.fmtv = 1 → s.fmt = 1 → ∃ t, exec .decode s = .next t ∧ exec .decF s = .next t) ∧
    (∀ r, s.fmtv = 1 → s.fmt = 0 → decodeCompact (packetBytes s) = .ok r → exec .decode s =
      .next { s with dir := r.dir, addr := r.addr.setWidth 16, value := r.value, err := 0 }) ∧
    ∀ r, s.fmtv = 1 → s.fmt = 1 → s.plen = 10 → decodeFramed true (packetBytes s) = .ok r → exec .decode s =
      .next { s with mtype := r.mtype, dir := r.dir, addr := r.addr.setWidth 16, value := r.value, err := 0 }

/-- R91 to R94: each load writes its register with the whole operand, SET_ADDR with bit 15 too, and changes nothing else
but ERR; their encodings; a bit 15 that SET_ADDR kept is dropped at encode; a compact session never reads MTYPE. -/
def Obligations.LoadsWriteTheirRegister : Prop :=
  EncodedAs 1 0x10000000 .setDir ∧ EncodedAs 16 0x11000000 .setAddr ∧
  EncodedAs 16 0x12000000 .setVal ∧ EncodedAs 16 0x13000000 .setMtype ∧
  (∀ (s : State) (b : BitVec 1), exec (.setDir b) s = .next { s with dir := b, err := 0 }) ∧
  (∀ (s : State) (imm16 : Word),
    exec (.setAddr imm16) s = .next { s with addr := imm16, err := 0 } ∧
    exec (.setVal imm16) s = .next { s with value := imm16, err := 0 } ∧
    exec (.setMtype imm16) s = .next { s with mtype := imm16, err := 0 }) ∧
  (∀ (s : State) (imm16 : Word),
    ∃ t u, execList [.setAddr imm16, .encC] s = .next t ∧
      execList [.setAddr (imm16 &&& 0x7FFF), .encC] s = .next u ∧ packetBytes t = packetBytes u) ∧
  ∀ (s : State) (imm16 : Word), s.fmt = 0 → ∀ i ∈ [Instr.encode, .decode],
    ∃ t, exec i s = .next t ∧ execList [.setMtype imm16, i] s = .next { t with mtype := imm16 }

/-- R95: PKT_CLR sets PLEN to 0, leaves the ten bytes and everything else but ERR, and a decode after it raises
INVALID_LENGTH. -/
def Obligations.PktClrEmptiesTheBuffer : Prop :=
  EncodedAs 0 0x20000000 (fun _ => .pktClr) ∧
  ∀ s : State, exec .pktClr s = .next { s with plen := 0, err := 0 } ∧
    execList [.pktClr, .decC] s = .next { s with plen := 0, err := 1 } ∧
    execList [.pktClr, .decF] s = .next { s with plen := 0, err := 1 } ∧
    (s.fmtv = 1 → execList [.pktClr, .decode] s = .next { s with plen := 0, err := 1 })

/-- R96: PKT_PUSH writes its byte at PKT[PLEN] while PLEN is below 10 and otherwise drops it, counts PLEN up to 255, and
changes nothing else but ERR. -/
def Obligations.PktPushAppendsAndCounts : Prop :=
  EncodedAs 8 0x21000000 .pktPush ∧
  ∀ (s : State) (b : Byte), ∃ t, exec (.pktPush b) s = .next t ∧
    t = { s with pkt := t.pkt, plen := if s.plen = 255 then 255 else s.plen + 1, err := 0 } ∧
    ∀ k : Fin 10, pktByte t k = if k.val = s.plen.toNat then b else pktByte s k

/-- R97: NOP writes `STATUS.ERR <- OK`, clearing a code that stood there, and nothing else. -/
def Obligations.NopOnlyReportsSuccess : Prop :=
  EncodedAs 0 0x00000000 (fun _ => .nop) ∧ ∀ s : State, exec .nop s = .next { s with err := 0 }

/-- After R31, R32 and R63 (PKT_LOAD): after PKT_CLR and one PKT_PUSH per byte, the buffer holds the first ten bytes in
order, PLEN is their count, saturating at 255, and the bytes beyond keep their old values. -/
def Obligations.PktLoadFillsTheBuffer : Prop :=
  ∀ (bs : List Byte) (s : State), ∃ t, execList (pktLoad bs) s = .next t ∧
    t = { s with pkt := t.pkt, plen := BitVec.ofNat 8 (min bs.length 255), err := 0 } ∧
    packetBytes t = bs.take 10 ∧ ∀ k : Fin 10, bs.length ≤ k → pktByte t k = pktByte s k

/-! ### Status codes (60_exceptions.md) -/

/-- R98: which command raises which status code, and from which cause; any illegal word raises ILLEGAL_COMMAND (4) and no
command of the table does; nothing reports 7. -/
def Obligations.StatusCodesHaveTheirCauses : Prop :=
  (∀ (w : CommandWord) (s : State), ¬ CommandWord.wf w → execWord w s = .next { s with err := 4 }) ∧
  ∀ (i : Instr) (s t : State), exec i s = .next t →
    (t.err = 1 ↔ (i = .decC ∧ s.plen ≠ 4) ∨ (i = .decF ∧ s.plen ≠ 10) ∨
      (i = .decode ∧ s.fmtv = 1 ∧ ((s.fmt = 0 ∧ s.plen ≠ 4) ∨ (s.fmt = 1 ∧ s.plen ≠ 10)))) ∧
    (t.err = 2 ↔ (i = .decF ∨ (i = .decode ∧ s.fmtv = 1 ∧ s.fmt = 1)) ∧ s.plen = 10 ∧
      compute [pktByte s 0 ++ pktByte s 1, pktByte s 2 ++ pktByte s 3, pktByte s 4 ++ pktByte s 5,
        pktByte s 6 ++ pktByte s 7] ≠ pktByte s 8 ++ pktByte s 9) ∧
    (t.err = 3 ↔ (i = .decF ∨ (i = .decode ∧ s.fmtv = 1 ∧ s.fmt = 1)) ∧ s.plen = 10 ∧
      compute [pktByte s 0 ++ pktByte s 1, pktByte s 2 ++ pktByte s 3, pktByte s 4 ++ pktByte s 5,
        pktByte s 6 ++ pktByte s 7] = pktByte s 8 ++ pktByte s 9 ∧ pktByte s 0 ++ pktByte s 1 ≠ (0xAA55 : Word)) ∧
    t.err ≠ 4 ∧
    (t.err = 5 ↔ (i = .encode ∨ i = .decode) ∧ s.fmtv = 0) ∧
    (t.err = 6 ↔ (∃ b, i = .setFmt b) ∧ s.fmtv = 1) ∧
    t.err ≠ 7

/-- R102: of several causes the first in the spec's order is reported: ILLEGAL_COMMAND before all, FORMAT_UNSET or
FORMAT_LOCKED before the packet, INVALID_LENGTH before CRC_MISMATCH, CRC_MISMATCH before BAD_HEADER. -/
def Obligations.FirstCauseInOrderIsReported : Prop :=
  ∀ s : State,
    (∀ w, ¬ CommandWord.wf w → execWord w s = .next { s with err := 4 }) ∧
    (s.fmtv = 0 → exec .encode s = .next { s with err := 5 } ∧ exec .decode s = .next { s with err := 5 }) ∧
    (s.fmtv = 1 → ∀ b, exec (.setFmt b) s = .next { s with err := 6 }) ∧
    (s.plen ≠ 10 → exec .decF s = .next { s with err := 1 }) ∧
    (s.plen ≠ 4 → exec .decC s = .next { s with err := 1 }) ∧
    (s.fmtv = 1 → s.fmt = 1 → s.plen ≠ 10 → exec .decode s = .next { s with err := 1 }) ∧
    (s.fmtv = 1 → s.fmt = 0 → s.plen ≠ 4 → exec .decode s = .next { s with err := 1 }) ∧
    (s.plen = 10 → verify [pktByte s 0 ++ pktByte s 1, pktByte s 2 ++ pktByte s 3, pktByte s 4 ++ pktByte s 5,
        pktByte s 6 ++ pktByte s 7] (pktByte s 8 ++ pktByte s 9) = false →
      exec .decF s = .next { s with err := 2 } ∧
      (s.fmtv = 1 → s.fmt = 1 → exec .decode s = .next { s with err := 2 })) ∧
    (s.plen = 10 → verify [pktByte s 0 ++ pktByte s 1, pktByte s 2 ++ pktByte s 3, pktByte s 4 ++ pktByte s 5,
        pktByte s 6 ++ pktByte s 7] (pktByte s 8 ++ pktByte s 9) = true →
      pktByte s 0 ++ pktByte s 1 ≠ (0xAA55 : Word) →
      exec .decF s = .next { s with err := 3 } ∧
      (s.fmtv = 1 → s.fmt = 1 → exec .decode s = .next { s with err := 3 }))

/-! ### A packet carried from one block to another -/

/-- A framed packet carries the transaction: the bytes that ENC_F leaves in one block's buffer, pushed into any other
block and decoded there by DEC_F, load that block with the message type, the direction, the value and the address cut
to 15 bits, and touch nothing else but its buffer. -/
def Obligations.FramedPacketCarriesTheTransaction : Prop :=
  ∀ s r : State, ∃ t u, exec .encF s = .next t ∧
    execList (pktLoad (packetBytes t) ++ [.decF]) r = .next u ∧
    u = { r with mtype := s.mtype, dir := s.dir, addr := s.addr &&& 0x7FFF, value := s.value,
                 pkt := t.pkt, plen := 10, err := 0 }

/-- A compact packet carries the transaction, but no message type: as above with ENC_C and DEC_C, MTYPE and PKT[4..9] of
the receiving block keeping their values. -/
def Obligations.CompactPacketCarriesTheTransaction : Prop :=
  ∀ s r : State, ∃ t u, exec .encC s = .next t ∧
    execList (pktLoad (packetBytes t) ++ [.decC]) r = .next u ∧
    u = { r with dir := s.dir, addr := s.addr &&& 0x7FFF, value := s.value, pkt := u.pkt, plen := 4, err := 0 } ∧
    packetBytes u = packetBytes t ∧ ∀ k : Fin 10, 4 ≤ k → pktByte u k = pktByte r k

/-- A framed packet with one bit flipped on the way is refused: the receiving block's DEC_F raises CRC_MISMATCH and its
transaction registers keep their values (after the spec's own inference from R80 and R81, R85 law 2). -/
def Obligations.CorruptedFramedPacketIsRefused : Prop :=
  ∀ (s r : State) (n : Nat), n < 80 → ∃ t u, exec .encF s = .next t ∧
    execList (pktLoad (flipBit n (packetBytes t)) ++ [.decF]) r = .next u ∧
    u = { r with pkt := u.pkt, plen := 10, err := 2 } ∧ packetBytes u = flipBit n (packetBytes t)

/-! ### The assembler (30_encoding.md R62, R63) -/

/-- After R62: a line whose operand fits its class assembles to the one word that decodes to that command with that operand,
`.word` to the word given; a command with an operand that does not fit is refused. The model's choice (log entry 6), R62
saying nothing of it, is that these lines are refused too: a command with an operand where its class has none or without
one where it has one, a `.word` above 32 bits, and, as a whole, a pseudo-instruction with an operand that does not fit. -/
def Obligations.AssembledLineDecodesToItsCommand : Prop :=
  (∀ (m : Mnemonic) (o : Option Nat), (AsmLine.command m o).wf = true →
    ∃ w i, assembleLine (.command m o) = some [w] ∧ decode w = .ok i ∧ i.mnemonic = m ∧
      (operandOf i).toNat = o.getD 0) ∧
  (∀ w : CommandWord, assembleLine (.word w.toNat) = some [w]) ∧
  ∀ l : AsmLine, l.wf = false → assembleLine l = none

/-- R63: each pseudo-instruction assembles to the words of the commands it stands for, in order. -/
def Obligations.PseudoInstructionsExpand : Prop :=
  (∀ ws : List Word, assembleLine (.crcWords (ws.map BitVec.toNat)) =
    some (encode .crcInit :: ws.map fun w => encode (.crcUpd w))) ∧
  (∀ bs : List Byte, assembleLine (.pktLoad (bs.map BitVec.toNat)) =
    some (encode .pktClr :: bs.map fun b => encode (.pktPush b))) ∧
  ∀ (d : BitVec 1) (a v : Word), assembleLine (.setTxn d.toNat a.toNat v.toNat) =
    some [encode (.setDir d), encode (.setAddr a), encode (.setVal v)]
end

