-- ==== Sys2Proof/Laws/Config.lean ====
section
/-! SUPPORT. The parameter values of 00_scope.md R8, one lemma a parameter the definitions read. -/

namespace Sys2Proof.Config

@[simp] theorem block_addrWidth : block.addrWidth = 15 := rfl
@[simp] theorem block_dirBit : block.dirBit = 15 := rfl
@[simp] theorem block_dirWrite : block.dirWrite = 1 := rfl
@[simp] theorem block_crcSeed : block.crcSeed = 0xFFFF := rfl
@[simp] theorem block_crcPoly : block.crcPoly = 0x8408 := rfl
@[simp] theorem block_crcShiftsPerWord : block.crcShiftsPerWord = 16 := rfl
@[simp] theorem block_frameHeader : block.frameHeader = 0xAA55 := rfl
@[simp] theorem block_compactLen : block.compactLen = 4 := rfl
@[simp] theorem block_framedLen : block.framedLen = 10 := rfl
@[simp] theorem block_compactByteOrder : block.compactByteOrder = .little := rfl
@[simp] theorem block_framedByteOrder : block.framedByteOrder = .big := rfl
@[simp] theorem block_framedHeaderCheck : block.framedHeaderCheck = true := rfl
@[simp] theorem block_pktCapacity : block.pktCapacity = 10 := rfl
@[simp] theorem block_plenWidth : block.plenWidth = 8 := rfl
@[simp] theorem block_cmdWidth : block.cmdWidth = 32 := rfl

end Sys2Proof.Config
end

