-- ==== Sys2Proof/Laws/Codec.lean ====
section
/-! SUPPORT. Byte order, the address word and the framed decode, said once. -/

namespace Sys2Proof.Machine

/-- A bit of two bytes put together. -/
theorem getLsbD_append_bytes (hi lo : Byte) (k : Nat) :
    BitVec.getLsbD (hi ++ lo : Word) k = if k < 8 then lo.getLsbD k else hi.getLsbD (k - 8) :=
  BitVec.getLsbD_append

/-- Two bytes on the wire are one word, high byte first. -/
theorem fromBe_eq_append (hi lo : Byte) : fromBe hi lo = hi ++ lo := by
  apply BitVec.eq_of_getLsbD_eq
  intro k hk
  rw [getLsbD_append_bytes, fromBe, BitVec.getLsbD_or, BitVec.getLsbD_shiftLeft, BitVec.getLsbD_setWidth,
    BitVec.getLsbD_setWidth]
  rcases Nat.lt_or_ge k 8 with h | h
  · simp [h, hk]
  · simp [show ¬ k < 8 by omega, hk, BitVec.getLsbD_of_ge lo k h, show k - 8 < 16 by omega]

/-- A word from its own bytes. -/
theorem fromBe_bytes (w : Word) : fromBe (w.extractLsb' 8 8) (w.extractLsb' 0 8) = w := by
  apply BitVec.eq_of_getLsbD_eq
  intro k hk
  rw [fromBe_eq_append, getLsbD_append_bytes, BitVec.getLsbD_extractLsb', BitVec.getLsbD_extractLsb']
  rcases Nat.lt_or_ge k 8 with h | h
  · simp [h]
  · simp [show ¬ k < 8 by omega, show 8 + (k - 8) = k by omega, show k - 8 < 8 by omega]

theorem extract_hi_fromBe (hi lo : Byte) : (fromBe hi lo).extractLsb' 8 8 = hi := by
  apply BitVec.eq_of_getLsbD_eq
  intro k hk
  rw [fromBe_eq_append, BitVec.getLsbD_extractLsb', getLsbD_append_bytes]
  simp [hk]

theorem extract_lo_fromBe (hi lo : Byte) : (fromBe hi lo).extractLsb' 0 8 = lo := by
  apply BitVec.eq_of_getLsbD_eq
  intro k hk
  rw [fromBe_eq_append, BitVec.getLsbD_extractLsb', getLsbD_append_bytes]
  simp [hk]

/-- The bits of an address word: the direction above the low fifteen bits of the address. -/
theorem getLsbD_addrWord (d : BitVec 1) (a : Word) (k : Nat) (hk : k < 16) :
    (addrWord d a).getLsbD k = if k = 15 then d.getLsbD 0 else a.getLsbD k := by
  have hm : ∀ j, j < 16 → addrMask.getLsbD j = decide (j < 15) := by decide
  rw [addrWord, BitVec.getLsbD_or, BitVec.getLsbD_and, hm k hk, Config.block_dirBit]
  rcases Nat.lt_or_ge k 15 with h | h
  · simp [h, show k ≠ 15 by omega]
  · obtain rfl : k = 15 := by omega
    simp

/-- The address word of its own two fields. -/
theorem addrWord_fields (w : Word) : addrWord (dirOfAddrWord w) ((addrOfAddrWord w).setWidth 16) = w := by
  apply BitVec.eq_of_getLsbD_eq
  intro k hk
  rw [getLsbD_addrWord _ _ _ hk]
  split
  · subst k; simp [dirOfAddrWord]
  · simp [addrOfAddrWord, hk, show k < 15 by omega]

/-- A framed packet as its five words. -/
theorem encodeFramed_eq_words (mt : Word) (d : BitVec 1) (a v : Word) : encodeFramed mt d a v =
    be16 0xAA55 ++ be16 mt ++ be16 (addrWord d a) ++ be16 v ++ be16 (compute [0xAA55, mt, addrWord d a, v]) := rfl

/-- Decoding ten bytes given as five words. -/
theorem decodeFramed_words (hc : Bool) (w0 w1 w2 w3 w4 : Word) :
    decodeFramed hc (be16 w0 ++ be16 w1 ++ be16 w2 ++ be16 w3 ++ be16 w4) = decodeFramedWords hc w0 w1 w2 w3 w4 := by
  change decodeFramedWords hc (fromBe _ _) (fromBe _ _) (fromBe _ _) (fromBe _ _) (fromBe _ _) = _
  simp only [fromBe_bytes]

/-- Ten bytes are five words. -/
theorem exists_words_of_length_ten (bs : List Byte) (h : bs.length = 10) :
    ∃ w0 w1 w2 w3 w4, bs = be16 w0 ++ be16 w1 ++ be16 w2 ++ be16 w3 ++ be16 w4 := by
  match bs, h with
  | [b0, b1, b2, b3, b4, b5, b6, b7, b8, b9], _ =>
    refine ⟨fromBe b0 b1, fromBe b2 b3, fromBe b4 b5, fromBe b6 b7, fromBe b8 b9, ?_⟩
    simp only [be16, extract_hi_fromBe, extract_lo_fromBe]
    rfl

/-- Two words with the same bytes are equal. -/
theorem be16_injective : Function.Injective be16 := fun w w' h => by
  simp only [be16, List.cons.injEq, and_true] at h
  rw [← fromBe_bytes w, h.1, h.2, fromBe_bytes]

/-- After the length, a framed decode fails with CrcMismatch where the fifth word is not the CRC of the first four. -/
theorem decodeFramedWords_crcMismatch (hc : Bool) (w0 w1 w2 w3 w4 : Word) (h : compute [w0, w1, w2, w3] ≠ w4) :
    decodeFramedWords hc w0 w1 w2 w3 w4 = .error .crcMismatch := by
  simp [decodeFramedWords, verify, h]

/-- With a consistent CRC the header decides, if it is checked. -/
theorem decodeFramedWords_of_crc (hc : Bool) (w0 w1 w2 w3 w4 : Word) (h : compute [w0, w1, w2, w3] = w4) :
    decodeFramedWords hc w0 w1 w2 w3 w4 =
      if hc = true ∧ w0 ≠ 0xAA55 then .error .badHeader
      else .ok { mtype := w1, dir := dirOfAddrWord w2, addr := addrOfAddrWord w2, value := w3 } := by
  rw [decodeFramedWords, if_neg (by simp [verify, h])]
  rfl

end Sys2Proof.Machine
end

