-- ==== Sys2Proof/Laws/Crc.lean ====
section
/-! SUPPORT. The shift steps of the CRC, said once. -/

namespace Sys2Proof.Machine

/-- `n` shift steps are the shift step iterated. -/
theorem crcShift_eq_iterate (n : Nat) (c : Word) : crcShift n c = crcStep^[n] c := by
  induction n generalizing c with
  | zero => rfl
  | succ n ih => rw [crcShift, ih, Function.iterate_succ_apply]

theorem crcShift_add (m n : Nat) (c : Word) : crcShift (m + n) c = crcShift n (crcShift m c) := by
  induction m generalizing c with
  | zero => simp [crcShift]
  | succ m ih => rw [Nat.succ_add, crcShift, ih, crcShift]

/-- A shift step undone: bit 15 of the result says whether the polynomial went in. -/
def crcUnstep (c : Word) : Word :=
  if c.getLsbD 15 then ((c ^^^ Config.block.crcPoly) <<< 1) ||| 1 else c <<< 1

theorem crcUnstep_crcStep (c : Word) : crcUnstep (crcStep c) = c := by
  unfold crcStep
  split
  · rename_i h
    have h15 : ((c >>> 1) ^^^ Config.block.crcPoly).getLsbD 15 = true := by
      have hp : (0x8408#16).getLsbD 15 = true := by decide
      rw [BitVec.getLsbD_xor, Config.block_crcPoly, BitVec.ofNat_eq_ofNat, hp, BitVec.getLsbD_ushiftRight,
        BitVec.getLsbD_of_ge c _ (by omega)]
      rfl
    rw [crcUnstep, if_pos h15, BitVec.xor_assoc, BitVec.xor_self, BitVec.xor_zero]
    apply BitVec.eq_of_getLsbD_eq
    intro k hk
    rcases Nat.eq_zero_or_pos k with rfl | hpos
    · simpa using h.symm
    · simp [hk, show ¬ k < 1 by omega, show 1 + (k - 1) = k by omega, show k ≠ 0 by omega]
  · rename_i h
    have h15 : (c >>> 1).getLsbD 15 = false := by
      rw [BitVec.getLsbD_ushiftRight, BitVec.getLsbD_of_ge c _ (by omega)]
    rw [crcUnstep, h15, if_neg Bool.false_ne_true]
    apply BitVec.eq_of_getLsbD_eq
    intro k hk
    rcases Nat.eq_zero_or_pos k with rfl | hpos
    · simpa using h
    · simp [hk, show ¬ k < 1 by omega, show 1 + (k - 1) = k by omega]

/-- No two values have the same shift step. -/
theorem crcStep_injective : Function.Injective crcStep :=
  Function.LeftInverse.injective crcUnstep_crcStep

theorem crcShift_injective (n : Nat) : Function.Injective (crcShift n) := by
  intro a b h
  rw [crcShift_eq_iterate, crcShift_eq_iterate] at h
  exact crcStep_injective.iterate n h

/-- Folding is the same only for the same XOR of value and word. -/
theorem crcWord_eq_iff (c c' w w' : Word) : crcWord c w = crcWord c' w' ↔ c ^^^ w = c' ^^^ w' :=
  (crcShift_injective _).eq_iff

/-- Folding the same words keeps two values apart, or equal. -/
theorem foldl_crcWord_eq_iff (ws : List Word) (c c' : Word) :
    ws.foldl crcWord c = ws.foldl crcWord c' ↔ c = c' := by
  induction ws generalizing c c' with
  | nil => rfl
  | cons w ws ih =>
    rw [List.foldl_cons, List.foldl_cons, ih, crcWord_eq_iff]
    exact BitVec.xor_left_inj _

end Sys2Proof.Machine
end

