-- ==== Sys2Proof/Laws/Decode.lean ====
section
/-! SUPPORT. The fields of a command word put together and taken apart, and the decoder said once. -/

namespace Sys2Proof

/-- The word of an `OP` and an operand (R62). -/
theorem opField_word (op : BitVec 8) (imm : Word) :
    opField ((op.setWidth 32 <<< 24) ||| imm.setWidth 32) = op := by
  apply BitVec.eq_of_getLsbD_eq
  intro k hk
  simp [opField, hk, BitVec.getLsbD_of_ge imm (24 + k) (by omega), show 24 + k < 32 by omega]

theorem rsvField_word (op : BitVec 8) (imm : Word) :
    rsvField ((op.setWidth 32 <<< 24) ||| imm.setWidth 32) = 0 := by
  apply BitVec.eq_of_getLsbD_eq
  intro k hk
  simp [rsvField, hk, show 16 + k < 24 by omega]

theorem immField_word (op : BitVec 8) (imm : Word) :
    immField ((op.setWidth 32 <<< 24) ||| imm.setWidth 32) = imm := by
  apply BitVec.eq_of_getLsbD_eq
  intro k hk
  simp [immField, hk, show k < 24 by omega, show k < 32 by omega]

/-- A word is its three fields. -/
theorem word_of_fields (w : CommandWord) (h : rsvField w = 0) :
    ((opField w).setWidth 32 <<< 24) ||| (immField w).setWidth 32 = w := by
  ext k hk
  have hz : ∀ j, j < 8 → w.getLsbD (16 + j) = false := fun j hj => by
    have := congrArg (fun v => v.getLsbD j) h
    simpa [rsvField, hj] using this
  simp only [opField, immField, BitVec.getElem_or, BitVec.getElem_shiftLeft, BitVec.getElem_setWidth,
    BitVec.getLsbD_extractLsb']
  rcases Nat.lt_or_ge k 16 with h1 | h1
  · simp [show k < 24 by omega, h1, BitVec.getLsbD_eq_getElem hk]
  · rcases Nat.lt_or_ge k 24 with h2 | h2
    · have := hz (k - 16) (by omega)
      rw [show 16 + (k - 16) = k by omega, BitVec.getLsbD_eq_getElem hk] at this
      simp [h2, this, show ¬ k < 16 by omega]
    · simp [show ¬ k < 24 by omega, show ¬ k < 16 by omega, show k - 24 < 8 by omega, show 24 + (k - 24) = k by omega,
        BitVec.getLsbD_eq_getElem hk]

/-- The `OP` column read forwards and backwards. -/
theorem mnemonicOfOp_eq_some_iff (op : BitVec 8) (m : Mnemonic) : mnemonicOfOp op = some m ↔ m.op = op := by
  constructor
  · intro h
    unfold mnemonicOfOp at h
    split at h <;> first
      | (cases h; apply BitVec.eq_of_toNat_eq; simp_all [Mnemonic.op])
      | cases h
  · rintro rfl
    cases m <;> rfl

/-- No two mnemonics have one `OP`. -/
theorem Mnemonic.op_injective : Function.Injective Mnemonic.op := fun m n h => by
  have hm := (mnemonicOfOp_eq_some_iff n.op m).2 h
  rw [(mnemonicOfOp_eq_some_iff n.op n).2 rfl] at hm
  exact (Option.some.inj hm).symm

/-- The command with a mnemonic and an operand, and the command's own mnemonic and operand. -/
@[simp] theorem instrOf_mnemonic (m : Mnemonic) (imm : Word) : (instrOf m imm).mnemonic = m := by
  cases m <;> rfl

theorem instrOf_operandOf (i : Instr) : instrOf i.mnemonic (operandOf i) = i := by
  cases i <;> simp [instrOf, Instr.mnemonic, operandOf]

theorem operandOf_fits (i : Instr) : i.mnemonic.operandClass.fits (operandOf i).toNat := by
  cases i <;> simp [OperandClass.fits, OperandClass.bits, Instr.mnemonic, Mnemonic.operandClass, operandOf] <;> omega

theorem operandOf_instrOf (m : Mnemonic) (imm : Word) (h : m.operandClass.fits imm.toNat) :
    operandOf (instrOf m imm) = imm := by
  apply BitVec.eq_of_toNat_eq
  cases m <;> simp [OperandClass.fits, OperandClass.bits, Mnemonic.operandClass, operandOf, instrOf] at h ⊢ <;> omega

/-- Everything the decoder accepts: the `OP` of a row, `RSV` zero, an operand that fits, and the command of the two. -/
theorem decode_eq_ok_iff (w : CommandWord) (i : Instr) :
    decode w = .ok i ↔ ∃ m, m.op = opField w ∧ rsvField w = 0 ∧ m.operandClass.fits (immField w).toNat ∧
      i = instrOf m (immField w) := by
  unfold decode
  constructor
  · intro h
    split at h
    · cases h
    · rename_i m hm
      split at h
      · cases h
      · split at h
        · rename_i h1 h2
          cases h
          exact ⟨m, (mnemonicOfOp_eq_some_iff _ _).1 hm, by simpa using h1, h2, rfl⟩
        · cases h
  · rintro ⟨m, hm, h1, h2, rfl⟩
    rw [(mnemonicOfOp_eq_some_iff _ _).2 hm]
    simp [h1, h2]

/-- The mnemonic of a decoded command is that of its `OP`. -/
theorem decode_mnemonic_op {w : CommandWord} {i : Instr} (h : decode w = .ok i) : i.mnemonic.op = opField w := by
  obtain ⟨m, hm, -, -, rfl⟩ := (decode_eq_ok_iff w i).1 h
  simpa using hm

/-- A mask of high ones clears the bits below it. -/
theorem and_highMask (w : CommandWord) (k : Nat) : w &&& (BitVec.allOnes 32 <<< k) = (w >>> k) <<< k := by
  ext j hj
  rcases Nat.lt_or_ge j k with h | h
  · simp [h]
  · simp only [BitVec.getElem_and, BitVec.getElem_shiftLeft, BitVec.getElem_allOnes, BitVec.getElem_ushiftRight]
    simp [show ¬ j < k by omega, show k + (j - k) = j by omega, BitVec.getLsbD_eq_getElem hj]

/-- The masks of R55 as runs of high ones: all bits but those of the operand. -/
theorem OperandClass.mask_eq (c : OperandClass) : c.mask = BitVec.allOnes 32 <<< c.bits := by
  cases c <;> decide

/-- The matches of R55: `OP` in bits 31:24, zero below. -/
theorem Mnemonic.pattern_toNat (m : Mnemonic) : m.pattern.toNat = m.op.toNat * 2 ^ 24 := by
  cases m <;> rfl

theorem opField_toNat (w : CommandWord) : (opField w).toNat = w.toNat / 2 ^ 24 := by
  have := w.isLt
  simp only [opField, BitVec.extractLsb'_toNat, Nat.shiftRight_eq_div_pow]
  omega

theorem rsvField_toNat (w : CommandWord) : (rsvField w).toNat = w.toNat / 2 ^ 16 % 2 ^ 8 := by
  simp only [rsvField, BitVec.extractLsb'_toNat, Nat.shiftRight_eq_div_pow]

theorem immField_toNat (w : CommandWord) : (immField w).toNat = w.toNat % 2 ^ 16 := by
  simp only [immField, BitVec.extractLsb'_toNat, Nat.shiftRight_eq_div_pow, Nat.pow_zero, Nat.div_one]

/-- A row of R55 selects a word by its fields: the `OP`, `RSV` zero, an operand that fits the class. -/
theorem Mnemonic.row_selectedBy_iff (m : Mnemonic) (w : CommandWord) :
    m.row.selectedBy w ↔ m.op = opField w ∧ rsvField w = 0 ∧ m.operandClass.fits (immField w).toNat := by
  have hw := w.isLt
  have hop := m.op.isLt
  simp only [OpcodeRow.selectedBy, Mnemonic.row, OperandClass.mask_eq, and_highMask, ← BitVec.toNat_inj,
    BitVec.toNat_shiftLeft, BitVec.toNat_ushiftRight, Mnemonic.pattern_toNat, opField_toNat, rsvField_toNat,
    immField_toNat, OperandClass.fits, Nat.shiftRight_eq_div_pow, Nat.shiftLeft_eq, BitVec.toNat_zero, BitVec.ofNat_eq_ofNat]
  cases m.operandClass <;> simp only [OperandClass.bits] <;> omega

/-- The table's rows are those of the mnemonics. -/
theorem mem_opcodeTable_iff (r : OpcodeRow) : r ∈ opcodeTable ↔ ∃ m : Mnemonic, m.row = r := by
  constructor
  · intro h
    obtain ⟨m, -, hm⟩ := List.mem_map.1 h
    exact ⟨m, hm⟩
  · rintro ⟨m, rfl⟩
    exact List.mem_map_of_mem (by cases m <;> decide)

/-- A word is well formed exactly when it decodes to a command. -/
theorem CommandWord.wf_iff_decode (w : CommandWord) : CommandWord.wf w ↔ ∃ i, decode w = .ok i := by
  simp only [CommandWord.wf, decode_eq_ok_iff]
  constructor
  · rintro ⟨r, hr, hs⟩
    obtain ⟨m, rfl⟩ := (mem_opcodeTable_iff r).1 hr
    obtain ⟨h1, h2, h3⟩ := (m.row_selectedBy_iff w).1 hs
    exact ⟨_, m, h1, h2, h3, rfl⟩
  · rintro ⟨i, m, h1, h2, h3, -⟩
    exact ⟨_, (mem_opcodeTable_iff _).2 ⟨m, rfl⟩, (m.row_selectedBy_iff w).2 ⟨h1, h2, h3⟩⟩

/-- The encoder's word, by its fields. -/
@[simp] theorem opField_encode (i : Instr) : opField (encode i) = i.mnemonic.op := opField_word _ _
@[simp] theorem rsvField_encode (i : Instr) : rsvField (encode i) = 0 := rsvField_word _ _
@[simp] theorem immField_encode (i : Instr) : immField (encode i) = operandOf i := immField_word _ _

end Sys2Proof
end

