-- ==== Sys2Proof/Laws/State.lean ====
section
/-! SUPPORT. One lemma per field per update of State, each true by rfl. -/

namespace Sys2Proof.Machine

section Updates
variable (s : State)

@[simp] theorem complete_crc : (complete s).crc = s.crc := rfl
@[simp] theorem complete_fmt : (complete s).fmt = s.fmt := rfl
@[simp] theorem complete_fmtv : (complete s).fmtv = s.fmtv := rfl
@[simp] theorem complete_err : (complete s).err = 0 := rfl
@[simp] theorem complete_matched : (complete s).matched = s.matched := rfl
@[simp] theorem complete_dir : (complete s).dir = s.dir := rfl
@[simp] theorem complete_addr : (complete s).addr = s.addr := rfl
@[simp] theorem complete_value : (complete s).value = s.value := rfl
@[simp] theorem complete_mtype : (complete s).mtype = s.mtype := rfl
@[simp] theorem complete_pkt : (complete s).pkt = s.pkt := rfl
@[simp] theorem complete_plen : (complete s).plen = s.plen := rfl
@[simp] theorem complete_inputs : (complete s).inputs = s.inputs := rfl
@[simp] theorem complete_index : (complete s).index = s.index := rfl

@[simp] theorem raise_crc (e : StatusCode) : (raise e s).crc = s.crc := rfl
@[simp] theorem raise_fmt (e : StatusCode) : (raise e s).fmt = s.fmt := rfl
@[simp] theorem raise_fmtv (e : StatusCode) : (raise e s).fmtv = s.fmtv := rfl
@[simp] theorem raise_err (e : StatusCode) : (raise e s).err = statusBits e := rfl
@[simp] theorem raise_matched (e : StatusCode) : (raise e s).matched = s.matched := rfl
@[simp] theorem raise_dir (e : StatusCode) : (raise e s).dir = s.dir := rfl
@[simp] theorem raise_addr (e : StatusCode) : (raise e s).addr = s.addr := rfl
@[simp] theorem raise_value (e : StatusCode) : (raise e s).value = s.value := rfl
@[simp] theorem raise_mtype (e : StatusCode) : (raise e s).mtype = s.mtype := rfl
@[simp] theorem raise_pkt (e : StatusCode) : (raise e s).pkt = s.pkt := rfl
@[simp] theorem raise_plen (e : StatusCode) : (raise e s).plen = s.plen := rfl
@[simp] theorem raise_inputs (e : StatusCode) : (raise e s).inputs = s.inputs := rfl
@[simp] theorem raise_index (e : StatusCode) : (raise e s).index = s.index := rfl

@[simp] theorem storePacket_crc (bs : List Byte) : (storePacket bs s).crc = s.crc := rfl
@[simp] theorem storePacket_fmt (bs : List Byte) : (storePacket bs s).fmt = s.fmt := rfl
@[simp] theorem storePacket_fmtv (bs : List Byte) : (storePacket bs s).fmtv = s.fmtv := rfl
@[simp] theorem storePacket_err (bs : List Byte) : (storePacket bs s).err = s.err := rfl
@[simp] theorem storePacket_matched (bs : List Byte) : (storePacket bs s).matched = s.matched := rfl
@[simp] theorem storePacket_dir (bs : List Byte) : (storePacket bs s).dir = s.dir := rfl
@[simp] theorem storePacket_addr (bs : List Byte) : (storePacket bs s).addr = s.addr := rfl
@[simp] theorem storePacket_value (bs : List Byte) : (storePacket bs s).value = s.value := rfl
@[simp] theorem storePacket_mtype (bs : List Byte) : (storePacket bs s).mtype = s.mtype := rfl
@[simp] theorem storePacket_pkt (bs : List Byte) : (storePacket bs s).pkt = storeFrom 0 bs s.pkt := rfl
@[simp] theorem storePacket_plen (bs : List Byte) : (storePacket bs s).plen = BitVec.ofNat 8 bs.length := rfl
@[simp] theorem storePacket_inputs (bs : List Byte) : (storePacket bs s).inputs = s.inputs := rfl
@[simp] theorem storePacket_index (bs : List Byte) : (storePacket bs s).index = s.index := rfl

@[simp] theorem pushByte_crc (b : Byte) : (pushByte b s).crc = s.crc := rfl
@[simp] theorem pushByte_fmt (b : Byte) : (pushByte b s).fmt = s.fmt := rfl
@[simp] theorem pushByte_fmtv (b : Byte) : (pushByte b s).fmtv = s.fmtv := rfl
@[simp] theorem pushByte_err (b : Byte) : (pushByte b s).err = s.err := rfl
@[simp] theorem pushByte_matched (b : Byte) : (pushByte b s).matched = s.matched := rfl
@[simp] theorem pushByte_dir (b : Byte) : (pushByte b s).dir = s.dir := rfl
@[simp] theorem pushByte_addr (b : Byte) : (pushByte b s).addr = s.addr := rfl
@[simp] theorem pushByte_value (b : Byte) : (pushByte b s).value = s.value := rfl
@[simp] theorem pushByte_mtype (b : Byte) : (pushByte b s).mtype = s.mtype := rfl
@[simp] theorem pushByte_pkt (b : Byte) : (pushByte b s).pkt = if s.plen.toNat < Config.block.pktCapacity then s.pkt.setIfInBounds s.plen.toNat b else s.pkt := rfl
@[simp] theorem pushByte_plen (b : Byte) : (pushByte b s).plen = BitVec.ofNat 8 (min (s.plen.toNat + 1) plenMax) := rfl
@[simp] theorem pushByte_inputs (b : Byte) : (pushByte b s).inputs = s.inputs := rfl
@[simp] theorem pushByte_index (b : Byte) : (pushByte b s).index = s.index := rfl

@[simp] theorem loadCompact_crc (r : CompactFields) : (loadCompact r s).crc = s.crc := rfl
@[simp] theorem loadCompact_fmt (r : CompactFields) : (loadCompact r s).fmt = s.fmt := rfl
@[simp] theorem loadCompact_fmtv (r : CompactFields) : (loadCompact r s).fmtv = s.fmtv := rfl
@[simp] theorem loadCompact_err (r : CompactFields) : (loadCompact r s).err = s.err := rfl
@[simp] theorem loadCompact_matched (r : CompactFields) : (loadCompact r s).matched = s.matched := rfl
@[simp] theorem loadCompact_dir (r : CompactFields) : (loadCompact r s).dir = r.dir := rfl
@[simp] theorem loadCompact_addr (r : CompactFields) : (loadCompact r s).addr = r.addr.setWidth 16 := rfl
@[simp] theorem loadCompact_value (r : CompactFields) : (loadCompact r s).value = r.value := rfl
@[simp] theorem loadCompact_mtype (r : CompactFields) : (loadCompact r s).mtype = s.mtype := rfl
@[simp] theorem loadCompact_pkt (r : CompactFields) : (loadCompact r s).pkt = s.pkt := rfl
@[simp] theorem loadCompact_plen (r : CompactFields) : (loadCompact r s).plen = s.plen := rfl
@[simp] theorem loadCompact_inputs (r : CompactFields) : (loadCompact r s).inputs = s.inputs := rfl
@[simp] theorem loadCompact_index (r : CompactFields) : (loadCompact r s).index = s.index := rfl

@[simp] theorem loadFramed_crc (r : FramedFields) : (loadFramed r s).crc = s.crc := rfl
@[simp] theorem loadFramed_fmt (r : FramedFields) : (loadFramed r s).fmt = s.fmt := rfl
@[simp] theorem loadFramed_fmtv (r : FramedFields) : (loadFramed r s).fmtv = s.fmtv := rfl
@[simp] theorem loadFramed_err (r : FramedFields) : (loadFramed r s).err = s.err := rfl
@[simp] theorem loadFramed_matched (r : FramedFields) : (loadFramed r s).matched = s.matched := rfl
@[simp] theorem loadFramed_dir (r : FramedFields) : (loadFramed r s).dir = r.dir := rfl
@[simp] theorem loadFramed_addr (r : FramedFields) : (loadFramed r s).addr = r.addr.setWidth 16 := rfl
@[simp] theorem loadFramed_value (r : FramedFields) : (loadFramed r s).value = r.value := rfl
@[simp] theorem loadFramed_mtype (r : FramedFields) : (loadFramed r s).mtype = r.mtype := rfl
@[simp] theorem loadFramed_pkt (r : FramedFields) : (loadFramed r s).pkt = s.pkt := rfl
@[simp] theorem loadFramed_plen (r : FramedFields) : (loadFramed r s).plen = s.plen := rfl
@[simp] theorem loadFramed_inputs (r : FramedFields) : (loadFramed r s).inputs = s.inputs := rfl
@[simp] theorem loadFramed_index (r : FramedFields) : (loadFramed r s).index = s.index := rfl

@[simp] theorem advance_crc : (advance s).crc = s.crc := rfl
@[simp] theorem advance_fmt : (advance s).fmt = s.fmt := rfl
@[simp] theorem advance_fmtv : (advance s).fmtv = s.fmtv := rfl
@[simp] theorem advance_err : (advance s).err = s.err := rfl
@[simp] theorem advance_matched : (advance s).matched = s.matched := rfl
@[simp] theorem advance_dir : (advance s).dir = s.dir := rfl
@[simp] theorem advance_addr : (advance s).addr = s.addr := rfl
@[simp] theorem advance_value : (advance s).value = s.value := rfl
@[simp] theorem advance_mtype : (advance s).mtype = s.mtype := rfl
@[simp] theorem advance_pkt : (advance s).pkt = s.pkt := rfl
@[simp] theorem advance_plen : (advance s).plen = s.plen := rfl
@[simp] theorem advance_inputs : (advance s).inputs = s.inputs := rfl
@[simp] theorem advance_index : (advance s).index = s.index + 1 := rfl

@[simp] theorem loadProgram_crc (ws : List CommandWord) : (loadProgram ws s).crc = s.crc := rfl
@[simp] theorem loadProgram_fmt (ws : List CommandWord) : (loadProgram ws s).fmt = s.fmt := rfl
@[simp] theorem loadProgram_fmtv (ws : List CommandWord) : (loadProgram ws s).fmtv = s.fmtv := rfl
@[simp] theorem loadProgram_err (ws : List CommandWord) : (loadProgram ws s).err = s.err := rfl
@[simp] theorem loadProgram_matched (ws : List CommandWord) : (loadProgram ws s).matched = s.matched := rfl
@[simp] theorem loadProgram_dir (ws : List CommandWord) : (loadProgram ws s).dir = s.dir := rfl
@[simp] theorem loadProgram_addr (ws : List CommandWord) : (loadProgram ws s).addr = s.addr := rfl
@[simp] theorem loadProgram_value (ws : List CommandWord) : (loadProgram ws s).value = s.value := rfl
@[simp] theorem loadProgram_mtype (ws : List CommandWord) : (loadProgram ws s).mtype = s.mtype := rfl
@[simp] theorem loadProgram_pkt (ws : List CommandWord) : (loadProgram ws s).pkt = s.pkt := rfl
@[simp] theorem loadProgram_plen (ws : List CommandWord) : (loadProgram ws s).plen = s.plen := rfl
@[simp] theorem loadProgram_inputs (ws : List CommandWord) : (loadProgram ws s).inputs = ws.map .command := rfl
@[simp] theorem loadProgram_index (ws : List CommandWord) : (loadProgram ws s).index = 0 := rfl

@[simp] theorem applyReset_crc : (applyReset s).crc = 0xFFFF := rfl
@[simp] theorem applyReset_fmt : (applyReset s).fmt = 0 := rfl
@[simp] theorem applyReset_fmtv : (applyReset s).fmtv = 0 := rfl
@[simp] theorem applyReset_err : (applyReset s).err = 0 := rfl
@[simp] theorem applyReset_matched : (applyReset s).matched = 0 := rfl
@[simp] theorem applyReset_dir : (applyReset s).dir = 0 := rfl
@[simp] theorem applyReset_addr : (applyReset s).addr = 0 := rfl
@[simp] theorem applyReset_value : (applyReset s).value = 0 := rfl
@[simp] theorem applyReset_mtype : (applyReset s).mtype = 0 := rfl
@[simp] theorem applyReset_pkt : (applyReset s).pkt = Vector.replicate 10 0x00 := rfl
@[simp] theorem applyReset_plen : (applyReset s).plen = 0 := rfl
@[simp] theorem applyReset_inputs : (applyReset s).inputs = s.inputs := rfl
@[simp] theorem applyReset_index : (applyReset s).index = s.index := rfl

end Updates

/-- Two states with equal fields are equal. -/
theorem State.eq_of_fields {s t : State} (h0 : s.crc = t.crc) (h1 : s.fmt = t.fmt) (h2 : s.fmtv = t.fmtv) (h3 : s.err = t.err) (h4 : s.matched = t.matched) (h5 : s.dir = t.dir) (h6 : s.addr = t.addr) (h7 : s.value = t.value) (h8 : s.mtype = t.mtype) (h9 : s.pkt = t.pkt) (h10 : s.plen = t.plen) (h11 : s.inputs = t.inputs) (h12 : s.index = t.index) : s = t := by
  cases s; cases t; simp_all

end Sys2Proof.Machine
end

