-- ==== Sys2Proof/Laws/Ops.lean ====
section
/-! SUPPORT. For each shared operation what it does, said once. -/

namespace Sys2Proof.Machine

/-! ### The packet buffer -/

/-- What `storeFrom` leaves at an index: a stored byte from `k` on, the old byte elsewhere. -/
theorem getElem_storeFrom (bs : List Byte) (k : Nat) (pkt : Vector Byte 10) (j : Nat) (hj : j < 10) :
    (storeFrom k bs pkt)[j] = if h : k ≤ j ∧ j - k < bs.length then bs[j - k] else pkt[j] := by
  induction bs generalizing k pkt with
  | nil => simp [storeFrom]
  | cons b bs ih =>
    rw [storeFrom, ih]
    rcases Nat.lt_trichotomy j k with h | h | h
    · simp [show ¬ k + 1 ≤ j by omega, show ¬ k ≤ j by omega, show k ≠ j by omega]
    · subst h
      simp
    · obtain ⟨d, rfl⟩ : ∃ d, j = k + 1 + d := ⟨j - (k + 1), by omega⟩
      simp [show k + 1 + d - (k + 1) = d by omega, show k + 1 + d - k = d + 1 by omega, show k ≤ k + 1 + d by omega,
        show k ≠ k + 1 + d by omega]

/-- A stored packet, byte by byte. -/
theorem pktByte_storePacket (bs : List Byte) (s : State) (k : Fin 10) :
    pktByte (storePacket bs s) k = if h : k.val < bs.length then bs[k.val] else pktByte s k := by
  simp [pktByte, getElem_storeFrom]

/-- The buffer's prefix has the length asked for, up to the buffer's own. -/
@[simp] theorem length_bufferPrefix (n : Nat) (s : State) : (bufferPrefix n s).length = min n 10 := by
  simp [bufferPrefix]

/-- The bytes of the buffer's prefix. -/
theorem getElem_bufferPrefix (n : Nat) (s : State) (k : Nat) (hk : k < (bufferPrefix n s).length) :
    (bufferPrefix n s)[k] = pktByte s ⟨k, by simp at hk; omega⟩ := by
  simp [bufferPrefix, pktByte]

/-- `PKT[0..3]`. -/
theorem bufferPrefix_four (s : State) :
    bufferPrefix 4 s = [pktByte s 0, pktByte s 1, pktByte s 2, pktByte s 3] := by
  apply List.ext_getElem
  · simp
  · intro k h1 h2
    rw [getElem_bufferPrefix]
    simp at h2
    interval_cases k <;> rfl

/-- `PKT[0..9]`. -/
theorem bufferPrefix_ten (s : State) :
    bufferPrefix 10 s = [pktByte s 0, pktByte s 1, pktByte s 2, pktByte s 3, pktByte s 4, pktByte s 5, pktByte s 6,
      pktByte s 7, pktByte s 8, pktByte s 9] := by
  apply List.ext_getElem
  · simp
  · intro k h1 h2
    rw [getElem_bufferPrefix]
    simp at h2
    interval_cases k <;> rfl

/-- The whole buffer is its ten-byte prefix. -/
theorem toList_pkt (s : State) : s.pkt.toList = bufferPrefix 10 s := by
  simp [bufferPrefix]

/-- Two buffers with the same bytes are equal. -/
theorem pkt_ext {p q : Vector Byte 10} (h : ∀ k : Fin 10, p[k] = q[k]) : p = q := by
  apply Vector.ext
  intro k hk
  exact h ⟨k, hk⟩

/-- A pushed byte goes to `PKT[PLEN]` where that exists, and nowhere else. -/
theorem pktByte_pushByte (b : Byte) (s : State) (k : Fin 10) :
    pktByte (pushByte b s) k = if k.val = s.plen.toNat then b else pktByte s k := by
  by_cases h : s.plen.toNat < 10
  · simp only [pktByte, pushByte_pkt, Config.block_pktCapacity, h, if_true, Fin.getElem_fin, Vector.getElem_setIfInBounds]
    simp [eq_comm]
  · rw [if_neg (by omega)]
    simp [pktByte, h]

/-! ### Completing and raising -/

/-- A command that raises has written nothing but STATUS.ERR; one that completes has OK there. -/
theorem complete_eq (s : State) : complete s = { s with err := 0 } := rfl
theorem raise_eq (e : StatusCode) (s : State) : raise e s = { s with err := statusBits e } := rfl

/-- Only `ok` has the number 0, and no code has the number 7. -/
theorem statusBits_eq_zero_iff (e : StatusCode) : statusBits e = 0 ↔ e = .ok := by cases e <;> decide
theorem statusBits_ne_seven (e : StatusCode) : statusBits e ≠ 7 := by cases e <;> decide

/-! ### The codec commands' bodies -/

/-- A compact packet has four bytes, a framed one ten. -/
@[simp] theorem length_encodeCompact (d : BitVec 1) (a v : Word) : (encodeCompact d a v).length = 4 := rfl
@[simp] theorem length_encodeFramed (mt : Word) (d : BitVec 1) (a v : Word) : (encodeFramed mt d a v).length = 10 := rfl

/-- ENC_C's body: the buffer, PLEN and ERR. -/
theorem performEncC_eq (s : State) : performEncC s =
    { s with pkt := storeFrom 0 (encodeCompact s.dir s.addr s.value) s.pkt, plen := 4, err := 0 } := by
  simp only [performEncC, complete_eq, storePacket, length_encodeCompact, BitVec.ofNat_eq_ofNat]

/-- ENC_F's body: the buffer, PLEN and ERR. -/
theorem performEncF_eq (s : State) : performEncF s =
    { s with pkt := storeFrom 0 (encodeFramed s.mtype s.dir s.addr s.value) s.pkt, plen := 10, err := 0 } := by
  simp only [performEncF, complete_eq, storePacket, length_encodeFramed, BitVec.ofNat_eq_ofNat]

@[simp] theorem pktByte_complete (s : State) (k : Fin 10) : pktByte (complete s) k = pktByte s k := rfl
@[simp] theorem pktByte_raise (e : StatusCode) (s : State) (k : Fin 10) : pktByte (raise e s) k = pktByte s k := rfl

/-- The buffer after ENC_C's body, byte by byte. -/
theorem pktByte_performEncC (s : State) (k : Fin 10) : pktByte (performEncC s) k =
    if h : k.val < (encodeCompact s.dir s.addr s.value).length then (encodeCompact s.dir s.addr s.value)[k.val]
    else pktByte s k := by
  rw [performEncC, pktByte_complete, pktByte_storePacket]

/-- The buffer after ENC_F's body, byte by byte. -/
theorem pktByte_performEncF (s : State) (k : Fin 10) : pktByte (performEncF s) k =
    if h : k.val < (encodeFramed s.mtype s.dir s.addr s.value).length then
      (encodeFramed s.mtype s.dir s.addr s.value)[k.val]
    else pktByte s k := by
  rw [performEncF, pktByte_complete, pktByte_storePacket]

/-- DEC_C's body: INVALID_LENGTH, or the transaction loaded. -/
theorem performDecC_cases (s : State) :
    (s.plen.toNat ≠ 4 ∧ performDecC s = raise .invalidLength s) ∨
    (s.plen.toNat = 4 ∧ ∃ r, decodeCompact (bufferPrefix 4 s) = .ok r ∧ performDecC s = complete (loadCompact r s)) := by
  by_cases h : s.plen.toNat = 4
  · refine .inr ⟨h, _, (by rw [bufferPrefix_four]; rfl), ?_⟩
    simp only [performDecC, Config.block_compactLen, bufferPrefix_four, h, ne_eq, not_true_eq_false, if_false]
    rfl
  · exact .inl ⟨h, by simp [performDecC, h]⟩

/-- DEC_F's body: INVALID_LENGTH, the codec's error, or the transaction loaded. -/
theorem performDecF_cases (s : State) :
    (s.plen.toNat ≠ 10 ∧ performDecF s = raise .invalidLength s) ∨
    (s.plen.toNat = 10 ∧ ∃ e, decodeFramed true (bufferPrefix 10 s) = .error e ∧ performDecF s = raise (codecStatus e) s) ∨
    (s.plen.toNat = 10 ∧ ∃ r, decodeFramed true (bufferPrefix 10 s) = .ok r ∧ performDecF s = complete (loadFramed r s)) := by
  by_cases h : s.plen.toNat = 10
  · refine .inr ?_
    cases hd : decodeFramed true (bufferPrefix 10 s) with
    | error e => exact .inl ⟨h, e, rfl, by simp [performDecF, h, hd]⟩
    | ok r => exact .inr ⟨h, r, rfl, by simp [performDecF, h, hd]⟩
  · exact .inl ⟨h, by simp [performDecF, h]⟩

/-- Ten bytes are never an InvalidLength, so DEC_F's codec errors are CRC_MISMATCH and BAD_HEADER. -/
theorem decodeFramed_bufferPrefix_ne_invalidLength (hc : Bool) (s : State) :
    decodeFramed hc (bufferPrefix 10 s) ≠ .error .invalidLength := by
  rw [bufferPrefix_ten]
  simp only [decodeFramed, decodeFramedWords]
  split
  · simp
  · split <;> simp

/-- `PLEN` as a word and as a number. -/
theorem plen_eq_iff (s : State) (n : Nat) (hn : n < 256) : s.plen = BitVec.ofNat 8 n ↔ s.plen.toNat = n := by
  rw [← BitVec.toNat_inj]
  simp [Nat.mod_eq_of_lt hn]

theorem performDecC_of_plen_ne (s : State) (h : s.plen ≠ 4) : performDecC s = { s with err := 1 } := by
  obtain ⟨-, h'⟩ | ⟨h1, -⟩ := performDecC_cases s
  · rw [h']; rfl
  · exact absurd ((plen_eq_iff s 4 (by omega)).2 h1) h

theorem performDecF_of_plen_ne (s : State) (h : s.plen ≠ 10) : performDecF s = { s with err := 1 } := by
  obtain ⟨-, h'⟩ | ⟨h1, -⟩ | ⟨h1, -⟩ := performDecF_cases s
  · rw [h']; rfl
  · exact absurd ((plen_eq_iff s 10 (by omega)).2 h1) h
  · exact absurd ((plen_eq_iff s 10 (by omega)).2 h1) h

theorem performDecC_of_ok (s : State) (h : s.plen = 4) (r : CompactFields)
    (hr : decodeCompact (bufferPrefix 4 s) = .ok r) : performDecC s = complete (loadCompact r s) := by
  obtain ⟨h1, -⟩ | ⟨-, r', h2, h'⟩ := performDecC_cases s
  · exact absurd ((plen_eq_iff s 4 (by omega)).1 h) h1
  · rw [hr] at h2; cases h2; exact h'

theorem performDecF_of_ok (s : State) (h : s.plen = 10) (r : FramedFields)
    (hr : decodeFramed true (bufferPrefix 10 s) = .ok r) : performDecF s = complete (loadFramed r s) := by
  obtain ⟨h1, -⟩ | ⟨-, e, h2, -⟩ | ⟨-, r', h2, h'⟩ := performDecF_cases s
  · exact absurd ((plen_eq_iff s 10 (by omega)).1 h) h1
  · rw [hr] at h2; cases h2
  · rw [hr] at h2; cases h2; exact h'

theorem performDecF_of_error (s : State) (h : s.plen = 10) (e : CodecError)
    (hr : decodeFramed true (bufferPrefix 10 s) = .error e) : performDecF s = raise (codecStatus e) s := by
  obtain ⟨h1, -⟩ | ⟨-, e', h2, h'⟩ | ⟨-, r, h2, -⟩ := performDecF_cases s
  · exact absurd ((plen_eq_iff s 10 (by omega)).1 h) h1
  · rw [hr] at h2; cases h2; exact h'
  · rw [hr] at h2; cases h2

/-! ### The command port -/

/-- What is placed at a position stands there. -/
theorem getElem?_placeInput (xs : List Input) (n : Nat) (x : Input) : (placeInput xs n x)[n]? = some x := by
  induction n generalizing xs with
  | zero => cases xs <;> rfl
  | succ n ih => cases xs <;> simpa [placeInput] using ih _

/-- The word that `withFetchWord` places is the one the next step fetches. -/
theorem fetch_withFetchWord (s : State) (nbits w : Nat) :
    fetch (s.withFetchWord nbits w) = some (.command (Sys2Proof.tableWord nbits w)) :=
  getElem?_placeInput _ _ _

end Sys2Proof.Machine
end

