-- ==== Sys2Proof/Laws/Exec.lean ====
section
/-! SUPPORT. Each command's meaning over the shared operations; the result to cite where exec would be unfolded. -/

namespace Sys2Proof.Machine

section
variable (s : State)

theorem exec_nop : exec .nop s = .next (complete s) := rfl
theorem exec_crcInit : exec .crcInit s = .next (complete { s with crc := 0xFFFF }) := rfl
theorem exec_crcUpd (w : Word) : exec (.crcUpd w) s = .next (complete { s with crc := crcWord s.crc w }) := rfl
theorem exec_crcChk (w : Word) : exec (.crcChk w) s = .next (complete { s with matched := matchFlag s.crc w }) := rfl
theorem exec_setDir (b : BitVec 1) : exec (.setDir b) s = .next (complete { s with dir := b }) := rfl
theorem exec_setAddr (w : Word) : exec (.setAddr w) s = .next (complete { s with addr := w }) := rfl
theorem exec_setVal (w : Word) : exec (.setVal w) s = .next (complete { s with value := w }) := rfl
theorem exec_setMtype (w : Word) : exec (.setMtype w) s = .next (complete { s with mtype := w }) := rfl
theorem exec_setFmt (b : BitVec 1) : exec (.setFmt b) s =
    .next (if s.fmtv = 1 then raise .formatLocked s else complete { s with fmt := b, fmtv := 1 }) := rfl
theorem exec_pktClr : exec .pktClr s = .next (complete { s with plen := 0 }) := rfl
theorem exec_pktPush (b : Byte) : exec (.pktPush b) s = .next (complete (pushByte b s)) := rfl
theorem exec_encC : exec .encC s = .next (performEncC s) := rfl
theorem exec_decC : exec .decC s = .next (performDecC s) := rfl
theorem exec_encF : exec .encF s = .next (performEncF s) := rfl
theorem exec_decF : exec .decF s = .next (performDecF s) := rfl
theorem exec_encode : exec .encode s = .next
    (if s.fmtv = 0 then raise .formatUnset s else if s.fmt = 0 then performEncC s else performEncF s) := rfl
theorem exec_decode : exec .decode s = .next
    (if s.fmtv = 0 then raise .formatUnset s else if s.fmt = 0 then performDecC s else performDecF s) := rfl

end

/-- One bit is 0 or 1. -/
theorem bit_cases (b : BitVec 1) : b = 0 ∨ b = 1 := by revert b; decide

/-- ENCODE is FORMAT_UNSET, or the body of ENC_C or ENC_F by the session's format. -/
theorem exec_encode_cases (s : State) :
    (s.fmtv = 0 ∧ exec .encode s = .next (raise .formatUnset s)) ∨
    (s.fmtv = 1 ∧ s.fmt = 0 ∧ exec .encode s = .next (performEncC s)) ∨
    (s.fmtv = 1 ∧ s.fmt = 1 ∧ exec .encode s = .next (performEncF s)) := by
  rw [exec_encode]
  obtain h | h := bit_cases s.fmtv <;> obtain h2 | h2 := bit_cases s.fmt <;> simp [h, h2]

/-- DECODE is FORMAT_UNSET, or the body of DEC_C or DEC_F by the session's format. -/
theorem exec_decode_cases (s : State) :
    (s.fmtv = 0 ∧ exec .decode s = .next (raise .formatUnset s)) ∨
    (s.fmtv = 1 ∧ s.fmt = 0 ∧ exec .decode s = .next (performDecC s)) ∨
    (s.fmtv = 1 ∧ s.fmt = 1 ∧ exec .decode s = .next (performDecF s)) := by
  rw [exec_decode]
  obtain h | h := bit_cases s.fmtv <;> obtain h2 | h2 := bit_cases s.fmt <;> simp [h, h2]

/-- SET_FMT is FORMAT_LOCKED, or sets the format. -/
theorem exec_setFmt_cases (b : BitVec 1) (s : State) :
    (s.fmtv = 1 ∧ exec (.setFmt b) s = .next (raise .formatLocked s)) ∨
    (s.fmtv = 0 ∧ exec (.setFmt b) s = .next (complete { s with fmt := b, fmtv := 1 })) := by
  rw [exec_setFmt]
  obtain h | h := bit_cases s.fmtv <;> simp [h]

end Sys2Proof.Machine
end

