-- ==== Sys2Proof/Laws/PerInstr.lean ====
section
/-! SUPPORT. One lemma per command for each family of LAWS.json. -/

/-- The encoder's word selects the command's row of 30_encoding.md R55. -/
def Sys2Proof.Laws.EncodeSelectsRow.Statement (i : Sys2Proof.Instr) : Prop :=
  i.mnemonic.row.selectedBy (Sys2Proof.encode i)

namespace Sys2Proof.Laws.EncodeSelectsRow

/-- What a row asks of a word, of the encoder's word: its `OP`, `RSV` zero, an operand of the class. -/
theorem statement_of_fields (i : Instr) : Statement i := by
  refine (Mnemonic.row_selectedBy_iff _ _).2 ?_
  simpa using operandOf_fits i

theorem nop : Statement .nop := statement_of_fields _
theorem crcInit : Statement .crcInit := statement_of_fields _
theorem crcUpd (imm16 : Word) : Statement (.crcUpd imm16) := statement_of_fields _
theorem crcChk (imm16 : Word) : Statement (.crcChk imm16) := statement_of_fields _
theorem setDir (b : BitVec 1) : Statement (.setDir b) := statement_of_fields _
theorem setAddr (imm16 : Word) : Statement (.setAddr imm16) := statement_of_fields _
theorem setVal (imm16 : Word) : Statement (.setVal imm16) := statement_of_fields _
theorem setMtype (imm16 : Word) : Statement (.setMtype imm16) := statement_of_fields _
theorem setFmt (b : BitVec 1) : Statement (.setFmt b) := statement_of_fields _
theorem pktClr : Statement .pktClr := statement_of_fields _
theorem pktPush (imm8 : Byte) : Statement (.pktPush imm8) := statement_of_fields _
theorem encC : Statement .encC := statement_of_fields _
theorem decC : Statement .decC := statement_of_fields _
theorem encF : Statement .encF := statement_of_fields _
theorem decF : Statement .decF := statement_of_fields _
theorem encode : Statement .encode := statement_of_fields _
theorem decode : Statement .decode := statement_of_fields _

end Sys2Proof.Laws.EncodeSelectsRow
end

