-- ==== Sys2Proof/Laws/Step.lean ====
section
/-! SUPPORT. What a command and a step can do, said once. -/

namespace Sys2Proof.Machine

/-- The command port's two fields, which no command touches. -/
def PortKept (s t : State) : Prop := t.inputs = s.inputs ∧ t.index = s.index

theorem portKept_performDecC (s : State) : PortKept s (performDecC s) := by
  obtain ⟨-, h⟩ | ⟨-, r, -, h⟩ := performDecC_cases s <;> rw [h] <;> constructor <;> rfl

theorem portKept_performDecF (s : State) : PortKept s (performDecF s) := by
  obtain ⟨-, h⟩ | ⟨-, e, -, h⟩ | ⟨-, r, -, h⟩ := performDecF_cases s <;> rw [h] <;> constructor <;> rfl

theorem portKept_performEncC (s : State) : PortKept s (performEncC s) := by constructor <;> simp [performEncC]

theorem portKept_performEncF (s : State) : PortKept s (performEncF s) := by constructor <;> simp [performEncF]

/-- Every command answers a next state, and leaves what the host presents alone. -/
theorem exec_answers (i : Instr) (s : State) : ∃ t, exec i s = .next t ∧ PortKept s t := by
  cases i
  case setFmt b =>
    obtain ⟨-, h⟩ | ⟨-, h⟩ := exec_setFmt_cases b s <;> exact ⟨_, h, by constructor <;> simp⟩
  case encC => exact ⟨_, exec_encC s, portKept_performEncC s⟩
  case encF => exact ⟨_, exec_encF s, portKept_performEncF s⟩
  case decC => exact ⟨_, exec_decC s, portKept_performDecC s⟩
  case decF => exact ⟨_, exec_decF s, portKept_performDecF s⟩
  case encode =>
    obtain ⟨-, h⟩ | ⟨-, -, h⟩ | ⟨-, -, h⟩ := exec_encode_cases s
    · exact ⟨_, h, by constructor <;> simp⟩
    · exact ⟨_, h, portKept_performEncC s⟩
    · exact ⟨_, h, portKept_performEncF s⟩
  case decode =>
    obtain ⟨-, h⟩ | ⟨-, -, h⟩ | ⟨-, -, h⟩ := exec_decode_cases s
    · exact ⟨_, h, by constructor <;> simp⟩
    · exact ⟨_, h, portKept_performDecC s⟩
    · exact ⟨_, h, portKept_performDecF s⟩
  case nop => exact ⟨_, exec_nop s, by constructor <;> simp⟩
  case crcInit => exact ⟨_, exec_crcInit s, by constructor <;> simp⟩
  case crcUpd w => exact ⟨_, exec_crcUpd s w, by constructor <;> simp⟩
  case crcChk w => exact ⟨_, exec_crcChk s w, by constructor <;> simp⟩
  case setDir b => exact ⟨_, exec_setDir s b, by constructor <;> simp⟩
  case setAddr w => exact ⟨_, exec_setAddr s w, by constructor <;> simp⟩
  case setVal w => exact ⟨_, exec_setVal s w, by constructor <;> simp⟩
  case setMtype w => exact ⟨_, exec_setMtype s w, by constructor <;> simp⟩
  case pktClr => exact ⟨_, exec_pktClr s, by constructor <;> simp⟩
  case pktPush b => exact ⟨_, exec_pktPush s b, by constructor <;> simp⟩

/-- A command word is its command, or ILLEGAL_COMMAND raised. -/
theorem execWord_cases (w : CommandWord) (s : State) :
    (∃ i, Sys2Proof.decode w = .ok i ∧ execWord w s = exec i s) ∨
    (∃ e, Sys2Proof.decode w = .error e ∧ execWord w s = .next (raise .illegalCommand s)) := by
  unfold execWord
  cases Sys2Proof.decode w with
  | ok i => exact .inl ⟨i, rfl, rfl⟩
  | error e => exact .inr ⟨e, rfl, rfl⟩

/-- Every command word answers a next state, and leaves what the host presents alone. -/
theorem execWord_answers (w : CommandWord) (s : State) :
    ∃ t, execWord w s = .next t ∧ PortKept s t := by
  obtain ⟨i, -, h⟩ | ⟨e, -, h⟩ := execWord_cases w s
  · rw [h]; exact exec_answers i s
  · exact ⟨_, h, rfl, rfl⟩

/-- A step waits, runs a command word, or resets; the index moves on past an input. -/
theorem step_cases (s : State) :
    (fetch s = none ∧ step s = .next s) ∨
    (fetch s = some .reset ∧ step s = .next (advance (applyReset s))) ∨
    (∃ w t, fetch s = some (.command w) ∧ execWord w s = .next t ∧ step s = .next (advance t)) := by
  unfold step
  cases h : fetch s with
  | none => exact .inl ⟨rfl, rfl⟩
  | some x =>
    cases x with
    | reset => exact .inr (.inl ⟨rfl, rfl⟩)
    | command w =>
      obtain ⟨t, ht, -⟩ := execWord_answers w s
      exact .inr (.inr ⟨w, t, rfl, ht, by simp [execInput, ht, advanceOutcome]⟩)

/-- A step after `n` steps. -/
theorem run_succ (n : Nat) (s t : State) (h : step s = .next t) :
    Sys2Proof.core.run (n + 1) s = Sys2Proof.core.run n t := by
  have h' : Sys2Proof.core.step s = .next t := h
  simp only [Host.Core.run, h']

/-- The step of a word presented next, from the word's own result. -/
theorem step_of_execWord (s t : State) (w : CommandWord) (hp : Presents s w) (hw : execWord w s = .next t) :
    step s = .next (advance t) := by
  have hf : fetch s = some (.command w) := hp
  simp [step, hf, execInput, hw, advanceOutcome]

/-- A block with nothing presented waits for any number of steps. -/
theorem run_of_fetch_none (s : State) (h : fetch s = none) (n : Nat) : Sys2Proof.core.run n s = .next s := by
  induction n with
  | zero => rfl
  | succ n ih => rw [run_succ n s s (by simp [step, h]), ih]

/-- Commands after commands. -/
theorem execList_append (is js : List Instr) (s t : State) (h : execList is s = .next t) :
    execList (is ++ js) s = execList js t := by
  induction is generalizing s with
  | nil => cases h; rfl
  | cons i is ih =>
    obtain ⟨u, hu, -⟩ := exec_answers i s
    simp only [execList, hu, List.cons_append] at h ⊢
    exact ih u h

end Sys2Proof.Machine
end

