-- ==== Sys2Proof/Tests/Slice0.lean ====
section
/-! SUPPORT. The writer's tests. Expected results come from spec/95_test_vectors.md (vectors V-...), from the tables of
spec/30_encoding.md and from hand calculation out of them; none from the model. The witnesses at the end show, for every
statement with hypotheses, states and operands that meet them. -/

namespace Sys2Proof.Tests

open Sys2Proof.Machine

/-! ### Helpers: small states, and one step of a word -/

/-- Reset, with ten buffer bytes and PLEN. -/
def holding (pkt : Vector Byte 10) (plen : BitVec 8) : State := { State.reset with pkt := pkt, plen := plen }

/-- Reset, with a transaction in the registers. -/
def transaction (mt : Word) (d : BitVec 1) (a v : Word) : State :=
  { State.reset with mtype := mt, dir := d, addr := a, value := v }

/-- What `f` sees after the step that runs the word `w`. -/
def seen {α : Type} (f : State → α) (w : Nat) (s : State) : Option α :=
  match step (s.withFetchWord 32 w) with
  | .next t => some (f t)
  | _ => none

/-- The next state of a step or a meaning, where there is one. -/
def nextOf (o : Host.Outcome State Fault Refusal) : Option State :=
  match o with
  | .next t => some t
  | _ => none

/-- The bytes of V-FR-1, a good framed packet. -/
def goodFrame : Vector Byte 10 := #v[0xAA, 0x55, 0x00, 0x01, 0x10, 0x00, 0x00, 0x00, 0x58, 0x13]

/-- The bytes of V-FR-12: header 0x55AA with a consistent CRC. -/
def wrongHeader : Vector Byte 10 := #v[0x55, 0xAA, 0x00, 0x01, 0x10, 0x00, 0x00, 0x00, 0x24, 0x9F]

/-- V-FR-9: V-FR-1 with bit 0 of byte 7 flipped. -/
def flippedFrame : Vector Byte 10 := #v[0xAA, 0x55, 0x00, 0x01, 0x10, 0x00, 0x00, 0x01, 0x58, 0x13]

/-- A compact packet in a buffer (V-CP-7). -/
def compactBytes : Vector Byte 10 := #v[0x34, 0x12, 0xEF, 0xBE, 0, 0, 0, 0, 0, 0]

/-- The session's format set. -/
def inSession (fmt : BitVec 1) (s : State) : State := { s with fmt := fmt, fmtv := 1 }

/-! ### Well-formedness refuses the ill formed (R54, R55, R56, R62) -/

theorem test_wf_reserved_op : ¬ CommandWord.wf 0x04000000 := by decide
theorem test_wf_reserved_op_last : ¬ CommandWord.wf 0xFF000000 := by decide
theorem test_wf_rsv_bit : ¬ CommandWord.wf 0x03010000 := by decide
theorem test_wf_class_n_operand : ¬ CommandWord.wf 0x30000001 := by decide
theorem test_wf_class_i1_operand : ¬ CommandWord.wf 0x10000002 := by decide
theorem test_wf_class_i8_operand : ¬ CommandWord.wf 0x21000100 := by decide
theorem test_wf_accepts_crc_upd : CommandWord.wf 0x0200FFFF := by decide
theorem test_fits_refuses : ¬ OperandClass.n.fits 1 ∧ ¬ OperandClass.i1.fits 2 ∧ ¬ OperandClass.i8.fits 256 ∧
    ¬ OperandClass.i16.fits 65536 := by decide
theorem test_fits_accepts : OperandClass.n.fits 0 ∧ OperandClass.i1.fits 1 ∧ OperandClass.i8.fits 255 ∧
    OperandClass.i16.fits 65535 := by decide
theorem test_line_class_n_with_operand : (AsmLine.command .nop (some 0)).wf = false := by decide
theorem test_line_operand_missing : (AsmLine.command .setDir none).wf = false := by decide
theorem test_line_i1_too_large : (AsmLine.command .setFmt (some 2)).wf = false := by decide
theorem test_line_i8_too_large : (AsmLine.command .pktPush (some 0x100)).wf = false := by decide
theorem test_line_i16_too_large : (AsmLine.command .setAddr (some 0x10000)).wf = false := by decide
theorem test_line_word_too_large : (AsmLine.word 0x100000000).wf = false := by decide
theorem test_line_crc_words_too_large : (AsmLine.crcWords [0, 0x10000]).wf = false := by decide
theorem test_line_pkt_load_too_large : (AsmLine.pktLoad [0, 0x100]).wf = false := by decide
theorem test_line_set_txn_too_large : (AsmLine.setTxn 2 0 0).wf = false ∧ (AsmLine.setTxn 0 0x10000 0).wf = false ∧
    (AsmLine.setTxn 0 0 0x10000).wf = false := by decide

/-! ### Decoding is right: each constructor from a word written out from R52, R54 and R55 -/

theorem test_decode_nop : Sys2Proof.decode 0b00000000_00000000_00000000_00000000 = .ok .nop := by decide
theorem test_decode_crc_init : Sys2Proof.decode 0b00000001_00000000_00000000_00000000 = .ok .crcInit := by decide
theorem test_decode_crc_upd : Sys2Proof.decode 0b00000010_00000000_00010010_00110100 = .ok (.crcUpd 0x1234) := by decide
theorem test_decode_crc_chk : Sys2Proof.decode 0b00000011_00000000_01011000_00010011 = .ok (.crcChk 0x5813) := by decide
theorem test_decode_set_dir : Sys2Proof.decode 0b00010000_00000000_00000000_00000001 = .ok (.setDir 1) := by decide
theorem test_decode_set_addr : Sys2Proof.decode 0b00010001_00000000_10010000_00000000 = .ok (.setAddr 0x9000) := by decide
theorem test_decode_set_val : Sys2Proof.decode 0b00010010_00000000_10101011_11001101 = .ok (.setVal 0xABCD) := by decide
theorem test_decode_set_mtype : Sys2Proof.decode 0b00010011_00000000_00000000_00000010 = .ok (.setMtype 2) := by decide
theorem test_decode_set_fmt : Sys2Proof.decode 0b00010100_00000000_00000000_00000001 = .ok (.setFmt 1) := by decide
theorem test_decode_pkt_clr : Sys2Proof.decode 0b00100000_00000000_00000000_00000000 = .ok .pktClr := by decide
theorem test_decode_pkt_push : Sys2Proof.decode 0b00100001_00000000_00000000_10101010 = .ok (.pktPush 0xAA) := by decide
theorem test_decode_enc_c : Sys2Proof.decode 0b00110000_00000000_00000000_00000000 = .ok .encC := by decide
theorem test_decode_dec_c : Sys2Proof.decode 0b00110001_00000000_00000000_00000000 = .ok .decC := by decide
theorem test_decode_enc_f : Sys2Proof.decode 0b00110010_00000000_00000000_00000000 = .ok .encF := by decide
theorem test_decode_dec_f : Sys2Proof.decode 0b00110011_00000000_00000000_00000000 = .ok .decF := by decide
theorem test_decode_encode : Sys2Proof.decode 0b00110100_00000000_00000000_00000000 = .ok .encode := by decide
theorem test_decode_decode : Sys2Proof.decode 0b00110101_00000000_00000000_00000000 = .ok .decode := by decide

/-- R56, R57: illegal words of each cause. -/
theorem test_decode_illegal : Sys2Proof.decode 0x04000000 = .error .reservedOp ∧
    Sys2Proof.decode 0xFF000000 = .error .reservedOp ∧ Sys2Proof.decode 0x35010000 = .error .reservedField ∧
    Sys2Proof.decode 0x00000001 = .error .operandBits ∧ Sys2Proof.decode 0x10000002 = .error .operandBits ∧
    Sys2Proof.decode 0x21000100 = .error .operandBits := by decide

/-- R62: the words 95_test_vectors.md gives for assembly lines. -/
theorem test_encode : encode (.crcUpd 0xAA55) = 0x0200AA55 ∧ encode (.setFmt 1) = 0x14000001 ∧
    encode (.pktPush 0x0A) = 0x2100000A ∧ encode .decode = 0x35000000 := by decide

theorem test_decode_table_word : decodeTableWord 32 0x0200AA55 = some (.crcUpd 0xAA55) ∧
    decodeTableWord 32 0x35010000 = none ∧ decodeTableWord 40 0 = none := by decide

/-! ### The checksum (95_test_vectors.md section 2) -/

/-- V-CRC-2, 3, 4, 5. -/
theorem test_crc_step : crcStep 0x0001 = 0x8408 ∧ crcStep 0x0002 = 0x0001 ∧ crcStep 0x8000 = 0x4000 ∧
    crcStep 0xFFFF = 0xFBF7 := by decide

/-- V-CRC-7, 9, 11, 12. -/
theorem test_crc_word : crcWord 0x0000 0x0001 = 0x19D8 ∧ crcWord 0xFFFF 0xFFFF = 0x0000 ∧
    crcWord 0xFFFF 0xAA55 = 0x57A7 ∧ crcWord 0x8408 0x0000 = 0x0CEC := by decide +kernel

/-- V-CMP-11 (V-SRC-2), V-CMP-14, V-CMP-15. -/
theorem test_compute_verify : compute [0xAA55, 0x0001, 0x1000, 0x0000] = 0x5813 ∧
    verify [0xAA55, 0x0001, 0x1000, 0x0000] 0x5812 = false ∧ verify [] 0xFFFF = true := by decide +kernel

/-- V-CRC-17, and V-CRC-16, the catalogued check value over the characters 1 to 9. -/
theorem test_crc_bytes : [0x55, 0xAA, 0x01, 0x00, 0x00, 0x10, 0x00, 0x00].foldl crcByte 0xFFFF = 0x5813 ∧
    [0x31, 0x32, 0x33, 0x34, 0x35, 0x36, 0x37, 0x38, 0x39].foldl crcByte 0xFFFF = 0x6F91 := by decide +kernel

/-! ### The codec (95_test_vectors.md section 3) -/

/-- V-CP-1 (V-SRC-1), V-CP-6. -/
theorem test_encode_compact : encodeCompact 1 0x1000 0xABCD = [0x00, 0x90, 0xCD, 0xAB] ∧
    encodeCompact 1 0xFFFF 0x0000 = [0xFF, 0xFF, 0x00, 0x00] := by decide

/-- V-CP-9, V-CP-11, V-CP-13, V-CP-14. -/
theorem test_decode_compact :
    decodeCompact [0x34, 0x12, 0xEF, 0xBE] = .ok { dir := 0, addr := 0x1234, value := 0xBEEF } ∧
    decodeCompact [0x00, 0x80, 0x00, 0x00] = .ok { dir := 1, addr := 0x0000, value := 0x0000 } ∧
    decodeCompact [0x00, 0x90, 0xCD] = .error .invalidLength ∧
    decodeCompact [0x00, 0x90, 0xCD, 0xAB, 0x00] = .error .invalidLength := by decide

/-- V-FR-2, V-FR-5. -/
theorem test_encode_framed :
    encodeFramed 0x0001 1 0x1000 0xABCD = [0xAA, 0x55, 0x00, 0x01, 0x90, 0x00, 0xAB, 0xCD, 0x35, 0xF4] ∧
    encodeFramed 0x0002 1 0x9000 0xBEEF = [0xAA, 0x55, 0x00, 0x02, 0x90, 0x00, 0xBE, 0xEF, 0x6E, 0x26] := by
  decide +kernel

/-- V-FR-7, V-FR-10, V-FR-12, V-FR-16, V-FR-13. -/
theorem test_decode_framed :
    decodeFramed true goodFrame.toList = .ok { mtype := 0x0001, dir := 0, addr := 0x1000, value := 0x0000 } ∧
    decodeFramed true [0xAA, 0x55, 0x00, 0x01, 0x90, 0x00, 0x00, 0x00, 0x58, 0x13] = .error .crcMismatch ∧
    decodeFramed true wrongHeader.toList = .error .badHeader ∧
    decodeFramed false wrongHeader.toList =
      .ok { mtype := 0x0001, dir := 0, addr := 0x1000, value := 0x0000 } ∧
    decodeFramed true (goodFrame.toList.take 9) = .error .invalidLength := by decide +kernel

/-! ### One step per command -/

/-- V-SL-20. -/
theorem test_nop : seen (·.err) 0x00000000 { State.reset with err := 1 } = some 0 := by decide

/-- V-CC-2. -/
theorem test_crc_init : seen (fun t => (t.crc, t.err)) 0x01000000 { State.reset with crc := 0x12E9, err := 4 } =
    some (0xFFFF, 0) := by decide

/-- V-CC-3. -/
theorem test_crc_upd : seen (fun t => (t.crc, t.err)) 0x0200AA55 State.reset = some (0x57A7, 0) := by decide +kernel

/-- V-CC-5: a word of zero still runs the sixteen shift steps. -/
theorem test_crc_upd_zero : seen (·.crc) 0x02000000 State.reset = some 0xF0B8 := by decide +kernel

/-- V-CC-6. -/
theorem test_crc_chk_match : seen (fun t => (t.crc, t.matched, t.err)) 0x03005813 { State.reset with crc := 0x5813 } =
    some (0x5813, 1, 0) := by decide

/-- V-CC-7, over a MATCH of 1: no difference is an error. -/
theorem test_crc_chk_differs : seen (fun t => (t.crc, t.matched, t.err)) 0x03005812
    { State.reset with crc := 0x5813, matched := 1 } = some (0x5813, 0, 0) := by decide

/-- V-CC-10: an illegal word of CRC_CHK's OP leaves MATCH. -/
theorem test_illegal_keeps_match : seen (fun t => (t.crc, t.matched, t.err)) 0x03010000
    { State.reset with matched := 1 } = some (0xFFFF, 1, 4) := by decide

/-- V-SL-9. -/
theorem test_set_dir : seen (fun t => (t.dir, t.err)) 0x10000001 State.reset = some (1, 0) := by decide

/-- V-SL-10. -/
theorem test_set_dir_illegal : seen (fun t => (t.dir, t.err)) 0x10000002 State.reset = some (0, 4) := by decide

/-- V-SL-11: bit 15 is kept. -/
theorem test_set_addr : seen (fun t => (t.addr, t.err)) 0x1100FFFF State.reset = some (0xFFFF, 0) := by decide

/-- V-SL-12. -/
theorem test_set_val : seen (fun t => (t.value, t.err)) 0x1200FFFF State.reset = some (0xFFFF, 0) := by decide

/-- V-SL-13. -/
theorem test_set_mtype : seen (fun t => (t.mtype, t.err)) 0x1300FFFF State.reset = some (0xFFFF, 0) := by decide

/-- V-SL-1. -/
theorem test_set_fmt : seen (fun t => (t.fmt, t.fmtv, t.err)) 0x14000001 State.reset = some (1, 1, 0) := by decide

/-- V-SL-2. -/
theorem test_set_fmt_locked : seen (fun t => (t.fmt, t.fmtv, t.err)) 0x14000000 (inSession 1 State.reset) =
    some (1, 1, 6) := by decide

/-- V-SL-19: PLEN is 0, the bytes stay. -/
theorem test_pkt_clr : seen (fun t => (t.plen, pktByte t 0, t.err)) 0x20000000
    (holding #v[0x11, 0x22, 0, 0, 0, 0, 0, 0, 0, 0] 2) = some (0, 0x11, 0) := by decide

/-- V-SL-15: the tenth byte. -/
theorem test_pkt_push_tenth : seen (fun t => (t.plen, t.pkt.toList)) 0x2100000A (holding #v[1, 2, 3, 4, 5, 6, 7, 8, 9, 0] 9) =
    some (10, [1, 2, 3, 4, 5, 6, 7, 8, 9, 10]) := by decide

/-- V-SL-16 and V-SL-17: an eleventh byte is dropped and counted; PLEN saturates. -/
theorem test_pkt_push_full :
    seen (fun t => (t.plen, t.pkt)) 0x210000EE (holding goodFrame 10) = some (11, goodFrame) ∧
    seen (fun t => (t.plen, t.pkt)) 0x21000077 (holding goodFrame 255) = some (255, goodFrame) := by decide

/-- V-CD-1, over old bytes: PKT[4..9] keep theirs. -/
theorem test_enc_c : seen (fun t => (t.pkt.toList, t.plen, t.err)) 0x30000000
    { transaction 0 1 0x1000 0xABCD with pkt := goodFrame } =
    some ([0x00, 0x90, 0xCD, 0xAB, 0x10, 0x00, 0x00, 0x00, 0x58, 0x13], 4, 0) := by decide

/-- V-CD-3. -/
theorem test_dec_c : seen (fun t => (t.dir, t.addr, t.value, t.err)) 0x31000000 (holding compactBytes 4) =
    some (0, 0x1234, 0xBEEF, 0) := by decide

/-- V-CD-4. -/
theorem test_dec_c_short : seen (fun t => (t.addr, t.plen, t.err)) 0x31000000
    { holding compactBytes 3 with addr := 0x4321 } = some (0x4321, 3, 1) := by decide

/-- V-CD-5. -/
theorem test_enc_f : seen (fun t => (t.pkt, t.plen, t.err)) 0x32000000 (transaction 1 0 0x1000 0) =
    some (goodFrame, 10, 0) := by decide +kernel

/-- V-CD-11: the accumulator is not touched. -/
theorem test_enc_f_crc : seen (·.crc) 0x32000000 { transaction 1 0 0 0 with crc := 0x12E9 } = some 0x12E9 := by
  decide +kernel

/-- V-CD-7. -/
theorem test_dec_f : seen (fun t => (t.mtype, t.dir, t.addr, t.value, t.err)) 0x33000000 (holding goodFrame 10) =
    some (1, 0, 0x1000, 0, 0) := by decide +kernel

/-- V-CD-9, and program P3's corrupted reply (V-FR-9). -/
theorem test_dec_f_refuses :
    seen (fun t => (t.mtype, t.addr, t.err)) 0x33000000 (holding wrongHeader 10) = some (0, 0, 3) ∧
    seen (fun t => (t.mtype, t.addr, t.err)) 0x33000000 (holding flippedFrame 10) = some (0, 0, 2) := by decide +kernel

/-- V-SL-4. -/
theorem test_encode_unset : seen (fun t => (t.plen, t.err)) 0x34000000 (transaction 0 1 0x1000 0xABCD) =
    some (0, 5) := by decide

/-- V-SL-5 and V-SL-6: the two formats. -/
theorem test_encode_formats :
    seen (fun t => (t.pkt.toList.take 4, t.plen, t.err)) 0x34000000 (inSession 0 (transaction 0 1 0x1000 0xABCD)) =
      some ([0x00, 0x90, 0xCD, 0xAB], 4, 0) ∧
    seen (fun t => (t.pkt, t.plen, t.err)) 0x34000000 (inSession 1 (transaction 1 0 0x1000 0)) =
      some (goodFrame, 10, 0) := by decide +kernel

/-- V-SL-7 and V-SL-8. -/
theorem test_decode_refuses :
    seen (·.err) 0x35000000 (holding #v[1, 2, 3, 0, 0, 0, 0, 0, 0, 0] 3) = some 5 ∧
    seen (fun t => (t.plen, t.err)) 0x35000000 (inSession 1 (holding compactBytes 4)) = some (4, 1) := by decide +kernel

/-- Programs P2 and P3, the last step of each. -/
theorem test_decode_formats :
    seen (fun t => (t.dir, t.addr, t.value, t.err)) 0x35000000
      (inSession 0 { holding #v[0x00, 0x10, 0xCD, 0xAB, 0, 0, 0, 0, 0, 0] 4 with dir := 1, addr := 0x9000 }) =
      some (0, 0x1000, 0xABCD, 0) ∧
    seen (fun t => (t.dir, t.addr, t.value, t.mtype)) 0x35000000
      (inSession 1 (holding #v[0xAA, 0x55, 0x00, 0x02, 0x90, 0x00, 0xBE, 0xEF, 0x6E, 0x26] 10)) =
      some (1, 0x1000, 0xBEEF, 2) := by decide +kernel

/-- The read port at the end of program P1 and of program P3 (R34), and a reserved index (R35). -/
theorem test_read_port :
    rd 0x00 { State.reset with crc := 0, matched := 1 } = 0x0010 ∧ rd 0x01 (inSession 1 State.reset) = 0x0003 ∧
    rd 0x02 State.reset = 0xFFFF ∧ rd 0x07 (holding goodFrame 10) = 0x000A ∧
    rd 0x11 (holding goodFrame 10) = 0x0013 ∧ rd 0x12 (holding goodFrame 10) = 0x0000 := by decide

/-- R111: a reset between commands, the index moving on past it; then the block waits. -/
theorem test_reset_input :
    nextOf (step { transaction 1 1 2 3 with fmtv := 1, err := 4, inputs := [.reset] }) =
      some { State.reset with inputs := [.reset], index := 1 } ∧
    nextOf (step { State.reset with inputs := [.reset], index := 1 }) =
      some { State.reset with inputs := [.reset], index := 1 } := by decide

/-! ### Assembly text (R62, R63) -/

/-- A command, a hex operand, a comment; a comment alone; a decimal operand. -/
theorem test_assemble_lines :
    assemble ['C', 'R', 'C', '_', 'U', 'P', 'D', ' ', '0', 'x', 'A', 'A', '5', '5', ' ', ';', 'c', '\n',
      ';', 'x', '\n', 'S', 'E', 'T', '_', 'F', 'M', 'T', ' ', '1'] = some [0x0200AA55, 0x14000001] := by decide +kernel

/-- `.word`, a pseudo-instruction, and an operand that does not fit. -/
theorem test_assemble_forms :
    assemble ['.', 'w', 'o', 'r', 'd', ' ', '0', 'x', '1', '0', '0', '0', '0', '0', '0', '2'] = some [0x10000002] ∧
    assemble ['S', 'E', 'T', '_', 'T', 'X', 'N', ' ', '1', ',', ' ', '0', 'x', '9', '0', '0', '0', ',', '7'] =
      some [0x10000001, 0x11009000, 0x12000007] ∧
    assemble ['S', 'E', 'T', '_', 'D', 'I', 'R', ' ', '2'] = none := by decide +kernel

/-! ### Witnesses: states and operands that meet each statement's hypotheses, at boundary values of each clause -/

/-- Both directions are met: a command at its largest operand and its word. -/
theorem witness_DecodeAndEncodeAreInverse :
    Sys2Proof.decode 0x2100_00FF = .ok (.pktPush 0xFF) ∧ encode (.pktPush 0xFF) = 0x2100_00FF := by decide

/-- A word of a row; a word of none by each cause. -/
theorem witness_EveryWordIsItsRowsCommandOrIllegal :
    (Mnemonic.row .crcUpd ∈ opcodeTable ∧ (Mnemonic.row .crcUpd).selectedBy 0x0200FFFF) ∧
    (∀ r ∈ opcodeTable, ¬ r.selectedBy 0x04000000) ∧ (∀ r ∈ opcodeTable, ¬ r.selectedBy 0x21000100) ∧
    ∀ r ∈ opcodeTable, ¬ r.selectedBy 0x00010000 := by decide

/-- A word that selects a row. -/
theorem witness_OpcodeRowsAreTheSpecsAndDoNotOverlap :
    Mnemonic.row .setDir ∈ opcodeTable ∧ (Mnemonic.row .setDir).selectedBy 0x10000001 := by decide

/-- The OP values at both ends of each reserved range are met by words; and NOP is a no-op, 0x00000001 is not. -/
theorem witness_ReservedOpcodesAreIllegalAndNopIsTheOnlyNoOp :
    ([0x04000000, 0x0F000000, 0x15000000, 0x1F000000, 0x22000000, 0x2F000000, 0x36000000, 0xFF000000].map
      fun w : CommandWord => (w.extractLsb' 24 8).toNat) = [0x04, 0x0F, 0x15, 0x1F, 0x22, 0x2F, 0x36, 0xFF] ∧
    nextOf (execWord 0x00000000 State.reset) = some { State.reset with err := 0 } ∧
    nextOf (execWord 0x00000001 State.reset) = some { State.reset with err := 4 } := by decide

/-- A word of PKT_PUSH with the largest operand; and two of its OP with a bit that must be zero. -/
theorem witness_OperandIsTheZeroExtendedLowField :
    (Mnemonic.pktPush.op = (0x210000FF : CommandWord).extractLsb' 24 8 ∧
      (0x210000FF : CommandWord).extractLsb' 16 8 = 0 ∧
      ∀ k, Mnemonic.pktPush.operandClass.bits ≤ k → ((0x210000FF : CommandWord).extractLsb' 0 16).getLsbD k = false) ∧
    (Mnemonic.pktPush.op = (0x21000100 : CommandWord).extractLsb' 24 8 ∧
      ((0x21000100 : CommandWord).extractLsb' 0 16).getLsbD 8 = true) ∧
    Mnemonic.pktPush.op = (0x21010000 : CommandWord).extractLsb' 24 8 ∧
      (0x21010000 : CommandWord).extractLsb' 16 8 ≠ 0 := by
  refine ⟨⟨by decide, by decide, fun k hk => ?_⟩, by decide, by decide⟩
  exact Nat.testBit_lt_two_pow (x := 255) (lt_of_lt_of_le (by decide) (Nat.pow_le_pow_right (by decide) hk))

/-- A command word presented. -/
theorem witness_StepRunsTheDecodedCommand :
    Presents (State.reset.withFetchWord 32 0x31000000) 0x31000000 ∧ Sys2Proof.decode 0x31000000 = .ok .decC := by decide

/-- An illegal word presented; nothing presented; a reset presented. -/
theorem witness_StepOfIllegalWordOfResetAndOfNothing :
    (Presents (State.reset.withFetchWord 32 0x04000000) 0x04000000 ∧
      Sys2Proof.decode 0x04000000 = .error .reservedOp) ∧
    fetch State.reset = none ∧ fetch { State.reset with inputs := [.reset] } = some .reset := by decide

/-- An error, after which FMTV is as before. -/
theorem witness_NoErrorStopsTheBlock :
    (nextOf (execWord 0x14000000 (inSession 1 State.reset))).map (·.err) = some 6 := by decide

/-- CRC_CHK; an illegal word of its OP, and another command. -/
theorem witness_FlagsAreWrittenByRuleAndNeverRead :
    Sys2Proof.decode 0x03005813 = .ok (.crcChk 0x5813) ∧
    (∀ v, Sys2Proof.decode 0x03010000 ≠ .ok (.crcChk v)) ∧ ∀ v, Sys2Proof.decode 0x00000000 ≠ .ok (.crcChk v) := by
  have h : Sys2Proof.decode 0x03010000 = .error .reservedField := by decide
  have h' : Sys2Proof.decode 0x00000000 = .ok .nop := by decide
  refine ⟨by decide, fun v hv => ?_, fun v hv => ?_⟩
  · rw [h] at hv; cases hv
  · rw [h'] at hv; cases hv

/-- Each register changed by a command of its list. -/
theorem witness_RegistersAreWrittenOnlyByTheCommandsNamed :
    (nextOf (exec (.crcUpd 0) State.reset)).map (·.crc) = some 0xF0B8 ∧
    (nextOf (exec (.setFmt 1) State.reset)).map (fun t => (t.fmt, t.fmtv)) = some (1, 1) ∧
    (nextOf (exec (.crcChk 0xFFFF) State.reset)).map (·.matched) = some 1 ∧
    (nextOf (exec .decC (holding #v[0x00, 0x90, 0xCD, 0xAB, 0, 0, 0, 0, 0, 0] 4))).map
      (fun t => (t.dir, t.addr, t.value)) = some (1, 0x1000, 0xABCD) ∧
    (nextOf (exec .decode (inSession 1 (holding goodFrame 10)))).map (·.mtype) = some 1 ∧
    (nextOf (exec .encC (transaction 0 1 0 0))).map (fun t => (pktByte t 1, t.plen)) = some (0x80, 4) := by
  decide +kernel

/-- The three forms. -/
theorem witness_CompactCommandsIgnoreTheMessageType :
    (inSession 0 State.reset).fmt = 0 ∧ Instr.encode ≠ .encC ∧ Instr.decode ≠ .decC := by decide

/-- Buffers that differ outside the packet: with no packet, and with nine bytes. -/
theorem witness_DecodeReadsOnlyThePacket :
    (packetBytes { holding compactBytes 0 with pkt := goodFrame } = packetBytes (holding compactBytes 0) ∧
      goodFrame ≠ compactBytes) ∧
    packetBytes { holding compactBytes 9 with pkt := compactBytes.set 9 0xFF } = packetBytes (holding compactBytes 9) ∧
    compactBytes.set 9 0xFF ≠ compactBytes := by decide

/-- A state with the invariant at its bounds: the index at the end, no format, the largest code. -/
theorem witness_EveryStepKeepsTheInvariant :
    Inv { State.reset with err := 6, inputs := [.reset], index := 1 } ∧
    nextOf (step { State.reset with err := 6, inputs := [.reset], index := 1 }) =
      some { State.reset with err := 6, inputs := [.reset], index := 1 } :=
  ⟨⟨by decide, by decide, by decide⟩, by decide⟩

/-- A framed session whose last step before a reset is a second SET_FMT; and the reset. -/
theorem witness_FormatIsFixedForTheSession :
    ((inSession 1 State.reset).fmtv = 1 ∧
      WithinSession { inSession 1 State.reset with inputs := [.command 0x14000000, .reset] } 1) ∧
    fetch { inSession 1 State.reset with inputs := [.command 0x14000000, .reset], index := 1 } = some .reset := by decide

/-- The reserved read indices at both ends. -/
theorem witness_ReadPortTable : 0x12 ≤ (0x12 : ReadIndex).toNat ∧ 0x12 ≤ (0x1F : ReadIndex).toNat := by decide

/-- The lowest reserved bits of STATUS and CTRL, in a state whose other bits are all 1. -/
theorem witness_StatusAndCtrlFields :
    rd 0x00 { inSession 1 State.reset with err := 7, matched := 1 } = 0x0017 ∧
    rd 0x01 { inSession 1 State.reset with err := 7, matched := 1 } = 0x0003 := by decide

/-- The lowest and the highest bit, of the first and the last word. -/
theorem witness_CrcSeesEverySingleBitFlip :
    (0 < [0xAA55#16, 0x0001#16].length ∧ 0 < 16) ∧ 1 < [0xAA55#16, 0x0001#16].length ∧ 15 < 16 := by decide

/-- The words that `EncodedAs` calls illegal, of each class: the lowest bit above the operand. -/
theorem witness_EncodedAs :
    (∀ operand : BitVec 0, (0x30000001 : CommandWord) ≠ 0x30000000 ||| operand.setWidth 32) ∧
    (∀ operand : BitVec 1, (0x10000002 : CommandWord) ≠ 0x10000000 ||| operand.setWidth 32) ∧
    (∀ operand : BitVec 8, (0x21000100 : CommandWord) ≠ 0x21000000 ||| operand.setWidth 32) ∧
    ∀ operand : BitVec 16, (0x03010000 : CommandWord) ≠ 0x03000000 ||| operand.setWidth 32 :=
  ⟨by decide, by decide, by decide +kernel, fun operand h => by
    have := congrArg (·.getLsbD 16) h
    simp at this⟩

/-- The seed in CRC, and an operand equal to CRC. -/
theorem witness_CrcUpdFoldsItsOperand : State.reset.crc = 0xFFFF ∧ (0xFFFF : Word) = State.reset.crc := by decide

/-- The state after CRC_WORDS of one word, and after none. -/
theorem witness_StreamedChecksumIsCompute :
    (let s := { State.reset with crc := 0x57A7 }
     s.crc = compute [0xAA55] ∧ s.err = 0) ∧ State.reset.crc = compute [] ∧ State.reset.err = 0 := by decide +kernel

/-- Lengths on either side of 4, and 4. -/
theorem witness_CompactPacketLayout : (compactBytes.toList.take 3).length ≠ 4 ∧ (compactBytes.toList.take 5).length ≠ 4 := by
  decide

theorem witness_CompactRoundTrip : (compactBytes.toList.take 4).length = 4 ∧ (compactBytes.toList.take 3).length ≠ 4 := by
  decide

/-- The bytes ENC_C keeps, at both ends. -/
theorem witness_EncCStoresTheCompactPacket : (4 : Fin 10) ≤ 4 ∧ (4 : Fin 10) ≤ 9 := by decide

/-- PLEN 4, and on either side of it. -/
theorem witness_DecCLoadsTheTransaction :
    (holding compactBytes 4).plen = 4 ∧ (holding compactBytes 3).plen ≠ 4 ∧ (holding compactBytes 5).plen ≠ 4 := by decide

/-- Lengths on either side of 10. -/
theorem witness_FramedPacketLayout :
    (goodFrame.toList.take 9).length ≠ 10 ∧ (goodFrame.toList ++ [0]).length ≠ 10 := by decide

theorem witness_FramedRoundTrip : (goodFrame.toList.take 9).length ≠ 10 ∧ (goodFrame.toList ++ [0]).length ≠ 10 := by
  decide

/-- The first bit and the last (V-FR-11 and V-FR-8). -/
theorem witness_FramedDecodeSeesEverySingleBitFlip :
    (0 < 80 ∧ flipBit 0 goodFrame.toList = [0xAB, 0x55, 0x00, 0x01, 0x10, 0x00, 0x00, 0x00, 0x58, 0x13]) ∧
    72 < 80 ∧ flipBit 72 goodFrame.toList = [0xAA, 0x55, 0x00, 0x01, 0x10, 0x00, 0x00, 0x00, 0x58, 0x12] := by decide

/-- Both sides of the equivalence are met (V-FR-12). -/
theorem witness_FramedBadHeaderExactlyAndCounts :
    decodeFramed true wrongHeader.toList = .error .badHeader ∧ (0x55AA : Word) ≠ 0xAA55 ∧
    wrongHeader.toList = be16 0x55AA ++ be16 0x0001 ++ be16 0x1000 ++ be16 0x0000 ++
      be16 (compute [0x55AA, 0x0001, 0x1000, 0x0000]) := by decide +kernel

/-- Each of the four cases, the length on either side of 10. -/
theorem witness_DecFLoadsTheTransaction :
    (holding goodFrame 9).plen ≠ 10 ∧ (holding goodFrame 11).plen ≠ 10 ∧
    ((holding flippedFrame 10).plen = 10 ∧ decodeFramed true flippedFrame.toList = .error .crcMismatch) ∧
    ((holding wrongHeader 10).plen = 10 ∧ decodeFramed true wrongHeader.toList = .error .badHeader) ∧
    ((holding goodFrame 10).plen = 10 ∧
      decodeFramed true goodFrame.toList = .ok { mtype := 1, dir := 0, addr := 0x1000, value := 0 }) := by decide +kernel

theorem witness_SetFmtSetsTheFormatOnce : State.reset.fmtv = 0 ∧ (inSession 1 State.reset).fmtv = 1 ∧
    nextOf (exec (.setFmt 0) (inSession 1 State.reset)) = some { inSession 1 State.reset with err := 6 } := by decide

/-- A compact session. -/
theorem witness_LoadsWriteTheirRegister : (inSession 0 State.reset).fmt = 0 ∧ (inSession 0 State.reset).fmtv = 1 := by
  decide

theorem witness_PktClrEmptiesTheBuffer : (inSession 1 (holding goodFrame 10)).fmtv = 1 := by decide

theorem witness_EncodeFollowsTheSession : State.reset.fmtv = 0 ∧
    ((inSession 0 State.reset).fmtv = 1 ∧ (inSession 0 State.reset).fmt = 0) ∧
    (inSession 1 State.reset).fmtv = 1 ∧ (inSession 1 State.reset).fmt = 1 := by decide

theorem witness_DecodeFollowsTheSession : State.reset.fmtv = 0 ∧
    (let s := inSession 0 (holding compactBytes 4)
     s.fmtv = 1 ∧ s.fmt = 0 ∧ decodeCompact (packetBytes s) = .ok { dir := 0, addr := 0x1234, value := 0xBEEF }) ∧
    (let s := inSession 1 (holding goodFrame 10)
     s.fmtv = 1 ∧ s.fmt = 1 ∧ s.plen = 10 ∧
       decodeFramed true (packetBytes s) = .ok { mtype := 1, dir := 0, addr := 0x1000, value := 0 }) := by decide +kernel

/-- Bytes beyond a list of none, of nine and of ten: the first, the last, and none. -/
theorem witness_PktLoadFillsTheBuffer :
    ([] : List Byte).length ≤ (0 : Fin 10) ∧ (goodFrame.toList.take 9).length ≤ (9 : Fin 10) ∧
    ∀ k : Fin 10, ¬ goodFrame.toList.length ≤ k := by decide

/-- Each code is raised: by an illegal word, and by a command for each cause. -/
theorem witness_StatusCodesHaveTheirCauses :
    ¬ CommandWord.wf 0x04000000 ∧
    (nextOf (exec .decC (holding compactBytes 5))).map (·.err) = some 1 ∧
    (nextOf (exec .decode (inSession 0 (holding compactBytes 3)))).map (·.err) = some 1 ∧
    (nextOf (exec .decode (inSession 1 (holding goodFrame 11)))).map (·.err) = some 1 ∧
    (nextOf (exec .decode (inSession 1 (holding flippedFrame 10)))).map (·.err) = some 2 ∧
    (nextOf (exec .decF (holding wrongHeader 10))).map (·.err) = some 3 ∧
    (nextOf (exec .encode State.reset)).map (·.err) = some 5 ∧
    (nextOf (exec (.setFmt 0) (inSession 0 State.reset))).map (·.err) = some 6 := by decide +kernel

/-- Each clause, with later causes present as well: no format and a wrong length; a wrong length and a wrong CRC; a
wrong CRC and a wrong header; a wrong header alone. -/
theorem witness_FirstCauseInOrderIsReported :
    ¬ CommandWord.wf 0x35010000 ∧
    (State.reset.fmtv = 0 ∧ State.reset.plen ≠ 10) ∧
    ((inSession 1 (holding flippedFrame 9)).fmtv = 1 ∧ (inSession 1 (holding flippedFrame 9)).fmt = 1 ∧
      (inSession 1 (holding flippedFrame 9)).plen ≠ 10) ∧
    ((inSession 0 (holding compactBytes 5)).fmtv = 1 ∧ (inSession 0 (holding compactBytes 5)).fmt = 0 ∧
      (inSession 0 (holding compactBytes 5)).plen ≠ 4) ∧
    verify [0x55AA, 0x0001, 0x1000, 0x0000] 0x249E = false ∧
    (verify [0x55AA, 0x0001, 0x1000, 0x0000] 0x249F = true ∧ (0x55AA : Word) ≠ 0xAA55) := by decide +kernel

/-- The first bit and the last of the eighty. -/
theorem witness_CorruptedFramedPacketIsRefused : 0 < 80 ∧ 79 < 80 ∧
    flipBit 79 goodFrame.toList = [0xAA, 0x55, 0x00, 0x01, 0x10, 0x00, 0x00, 0x00, 0x58, 0x93] := by decide

/-- Lines at the largest operands, and one beyond. -/
theorem witness_AssembledLineDecodesToItsCommand :
    (AsmLine.command .nop none).wf = true ∧ (AsmLine.command .setDir (some 1)).wf = true ∧
    (AsmLine.command .pktPush (some 255)).wf = true ∧ (AsmLine.command .crcUpd (some 65535)).wf = true ∧
    (AsmLine.command .crcUpd (some 65536)).wf = false := by decide

end Sys2Proof.Tests
end

section
/-! PROOF. The flags (10_state.md R27) and the read port (R34, R35). -/

namespace Sys2Proof.Machine

/-! ### The read port -/

/-- The ten read indices from 0x08 on are the bytes of the buffer (R34). -/
theorem rd_pktByte (s : State) (k : Fin 10) :
    rd (BitVec.ofNat 5 (0x08 + k)) s = (pktByte s k).setWidth 16 := by
  fin_cases k <;> rfl

/-- The indices from 0x12 on have no row in the table of R34, so they read 0 (R35). -/
theorem rd_reserved (s : State) (idx : ReadIndex) (h : 0x12 ≤ idx.toNat) : rd idx s = 0x0000 := by
  unfold rd
  split
  case h_19 => rfl
  all_goals omega

/-- Settles O21: the registers row by row, then the buffer's bytes and the reserved range. -/
theorem readPortTable : Obligations.ReadPortTable := fun s =>
  ⟨rfl, rfl, rfl, rfl, rfl, rfl, rfl, rfl, rd_pktByte s, rd_reserved s⟩

/-! ### The flags -/

/-- `s` with other values in its two flags. -/
def State.withFlags (s : State) (e : BitVec 3) (m : BitVec 1) : State := { s with err := e, matched := m }

/-- R27 for a command other than CRC_CHK, `f` its next state: it completes with OK or writes nothing but ERR; and with
other flags before it the next state is the same, but for the MATCH it was given. -/
structure FlagsByRule (f : State → State) : Prop where
  reports : ∀ s, (f s).err = 0 ∨ f s = { s with err := (f s).err }
  ignores : ∀ (s : State) e m, f (s.withFlags e m) = { f s with matched := m }

namespace FlagsByRule

/-- MATCH is kept: the flags it is given may be the state's own. -/
theorem matched_eq {f : State → State} (hf : FlagsByRule f) (s : State) : (f s).matched = s.matched :=
  congrArg (·.matched) (hf.ignores s s.err s.matched :)

theorem raised (e : StatusCode) : FlagsByRule (raise e) where
  reports _ := .inr rfl
  ignores _ _ _ := rfl

/-- A command that completes after writes which neither read a flag nor touch MATCH. -/
theorem completed {g : State → State}
    (hg : ∀ (s : State) e m, complete (g (s.withFlags e m)) = { complete (g s) with matched := m }) :
    FlagsByRule fun s => complete (g s) where
  reports _ := .inl rfl
  ignores := hg

/-- A choice that depends on no flag. -/
theorem choice {c : State → Prop} [DecidablePred c] {f g : State → State}
    (hc : ∀ (s : State) e m, c (s.withFlags e m) ↔ c s) (hf : FlagsByRule f) (hg : FlagsByRule g) :
    FlagsByRule fun s => if c s then f s else g s where
  reports s := by
    by_cases h : c s
    · simpa only [if_pos h] using hf.reports s
    · simpa only [if_neg h] using hg.reports s
  ignores s e m := by
    by_cases h : c s
    · simpa only [if_pos h, if_pos ((hc s e m).2 h)] using hf.ignores s e m
    · simpa only [if_neg h, if_neg (mt (hc s e m).1 h)] using hg.ignores s e m

theorem encC : FlagsByRule performEncC := .completed fun _ _ _ => rfl

theorem encF : FlagsByRule performEncF := .completed fun _ _ _ => rfl

theorem decC : FlagsByRule performDecC where
  reports s := by
    obtain ⟨-, h⟩ | ⟨-, r, -, h⟩ := performDecC_cases s
    · exact .inr (by rw [h]; rfl)
    · exact .inl (by rw [h]; rfl)
  ignores s e m := by
    obtain ⟨hlen, h⟩ | ⟨hlen, r, hr, h⟩ := performDecC_cases s
    · rw [h]; exact performDecC_of_plen_ne (s.withFlags e m) (mt (plen_eq_iff s 4 (by omega)).1 hlen)
    · rw [h]; exact performDecC_of_ok (s.withFlags e m) ((plen_eq_iff s 4 (by omega)).2 hlen) r hr

theorem decF : FlagsByRule performDecF where
  reports s := by
    obtain ⟨-, h⟩ | ⟨-, c, -, h⟩ | ⟨-, r, -, h⟩ := performDecF_cases s
    · exact .inr (by rw [h]; rfl)
    · exact .inr (by rw [h]; rfl)
    · exact .inl (by rw [h]; rfl)
  ignores s e m := by
    obtain ⟨hlen, h⟩ | ⟨hlen, c, hc, h⟩ | ⟨hlen, r, hr, h⟩ := performDecF_cases s
    · rw [h]; exact performDecF_of_plen_ne (s.withFlags e m) (mt (plen_eq_iff s 10 (by omega)).1 hlen)
    · rw [h]; exact performDecF_of_error (s.withFlags e m) ((plen_eq_iff s 10 (by omega)).2 hlen) c hc
    · rw [h]; exact performDecF_of_ok (s.withFlags e m) ((plen_eq_iff s 10 (by omega)).2 hlen) r hr

end FlagsByRule

/-- Every command but CRC_CHK is a function of the state that treats the flags by the rule. -/
theorem exec_flagsByRule (i : Instr) (hi : ∀ v, i ≠ .crcChk v) :
    ∃ f, (∀ s, exec i s = .next (f s)) ∧ FlagsByRule f := by
  cases i with
  | crcChk v => exact absurd rfl (hi v)
  | nop => exact ⟨_, exec_nop, .completed fun _ _ _ => rfl⟩
  | crcInit => exact ⟨_, exec_crcInit, .completed fun _ _ _ => rfl⟩
  | crcUpd w => exact ⟨_, (exec_crcUpd · w), .completed fun _ _ _ => rfl⟩
  | setDir b => exact ⟨_, (exec_setDir · b), .completed fun _ _ _ => rfl⟩
  | setAddr w => exact ⟨_, (exec_setAddr · w), .completed fun _ _ _ => rfl⟩
  | setVal w => exact ⟨_, (exec_setVal · w), .completed fun _ _ _ => rfl⟩
  | setMtype w => exact ⟨_, (exec_setMtype · w), .completed fun _ _ _ => rfl⟩
  | setFmt b =>
    exact ⟨_, (exec_setFmt · b), .choice (fun _ _ _ => Iff.rfl) (.raised _) (.completed fun _ _ _ => rfl)⟩
  | pktClr => exact ⟨_, exec_pktClr, .completed fun _ _ _ => rfl⟩
  | pktPush b => exact ⟨_, (exec_pktPush · b), .completed fun _ _ _ => rfl⟩
  | encC => exact ⟨_, exec_encC, .encC⟩
  | decC => exact ⟨_, exec_decC, .decC⟩
  | encF => exact ⟨_, exec_encF, .encF⟩
  | decF => exact ⟨_, exec_decF, .decF⟩
  | encode =>
    exact ⟨_, exec_encode, .choice (fun _ _ _ => Iff.rfl) (.raised _)
      (.choice (fun _ _ _ => Iff.rfl) .encC .encF)⟩
  | decode =>
    exact ⟨_, exec_decode, .choice (fun _ _ _ => Iff.rfl) (.raised _)
      (.choice (fun _ _ _ => Iff.rfl) .decC .decF)⟩

/-- The command port's two outcomes, by what the decoder answers (R56). -/
theorem execWord_of_decode_ok {w : CommandWord} {i : Instr} (h : Sys2Proof.decode w = .ok i) (s : State) :
    execWord w s = exec i s := by
  simp only [execWord, h]

theorem execWord_of_decode_error {w : CommandWord} {c : IllegalWord} (h : Sys2Proof.decode w = .error c)
    (s : State) : execWord w s = .next (raise .illegalCommand s) := by
  simp only [execWord, h]

/-- Every word that is no CRC_CHK, an illegal word among them, is such a function too. -/
theorem execWord_flagsByRule (w : CommandWord) (hw : ∀ v, Sys2Proof.decode w ≠ .ok (.crcChk v)) :
    ∃ f, (∀ s, execWord w s = .next (f s)) ∧ FlagsByRule f := by
  cases h : Sys2Proof.decode w with
  | error c => exact ⟨_, execWord_of_decode_error h, .raised _⟩
  | ok i =>
    obtain ⟨f, hf, hrule⟩ := exec_flagsByRule i fun v hv => hw v (hv ▸ h)
    exact ⟨f, fun s => (execWord_of_decode_ok h s).trans (hf s), hrule⟩

/-- Settles O12: CRC_CHK by its own next state, every other word as a function that treats the flags by the rule. -/
theorem flagsAreWrittenByRuleAndNeverRead : Obligations.FlagsAreWrittenByRuleAndNeverRead := by
  intro w s e m
  by_cases hchk : ∃ v, Sys2Proof.decode w = .ok (.crcChk v)
  · obtain ⟨v, hv⟩ := hchk
    have hexec : ∀ u, execWord w u = .next (complete { u with matched := matchFlag u.crc v }) := fun u =>
      (execWord_of_decode_ok hv u).trans (exec_crcChk u v)
    refine ⟨_, hexec s, .inl rfl, fun imm16 himm => ?_, fun hne => absurd hv (hne v)⟩
    obtain rfl : v = imm16 := by simpa [hv] using himm
    exact ⟨rfl, hexec _⟩
  · have hne : ∀ v, Sys2Proof.decode w ≠ .ok (.crcChk v) := not_exists.1 hchk
    obtain ⟨f, hf, hrule⟩ := execWord_flagsByRule w hne
    refine ⟨f s, hf s, hrule.reports s, fun v hv => absurd hv (hne v), fun _ => ⟨hrule.matched_eq s, ?_⟩⟩
    exact (hf _).trans (congrArg _ (hrule.ignores s e m))

end Sys2Proof.Machine
end

section
/-! PROOF. The encoding (30_encoding.md R54 to R60, R62, R63): the decoder and the command port over all words, the
packets' bytes, and the words of the pseudo-instructions. -/

namespace Sys2Proof

/-! ### Words by their fields -/

/-- A word with a row's `OP`, `RSV` zero and an operand of the class is the row's command (R54). -/
theorem decode_of_fields {w : CommandWord} {m : Mnemonic} (hop : m.op = opField w) (hrsv : rsvField w = 0)
    (hfits : m.operandClass.fits (immField w).toNat) : decode w = .ok (instrOf m (immField w)) :=
  (decode_eq_ok_iff w _).2 ⟨m, hop, hrsv, hfits, rfl⟩

/-- The row of a decoded word's `OP` accepts its fields (R54). -/
theorem fields_of_decode {w : CommandWord} {m : Mnemonic} {i : Instr} (hop : m.op = opField w)
    (h : decode w = .ok i) : rsvField w = 0 ∧ m.operandClass.fits (immField w).toNat := by
  obtain ⟨n, hn, hrsv, hfits, -⟩ := (decode_eq_ok_iff w i).1 h
  obtain rfl : n = m := Mnemonic.op_injective (hn.trans hop.symm)
  exact ⟨hrsv, hfits⟩

/-- A decoded word is the encoder's word of its command (R62). -/
theorem encode_of_decode {w : CommandWord} {i : Instr} (h : decode w = .ok i) : encode i = w := by
  obtain ⟨m, hop, hrsv, hfits, rfl⟩ := (decode_eq_ok_iff w i).1 h
  rw [encode, instrOf_mnemonic, operandOf_instrOf m _ hfits, hop, word_of_fields w hrsv]

/-- A word matches no row exactly where no row with its `OP` accepts its other fields (R56). -/
theorem no_row_selectedBy_iff (w : CommandWord) : (∀ r ∈ opcodeTable, ¬ r.selectedBy w) ↔
    ∀ m : Mnemonic, m.op = opField w → ¬ (rsvField w = 0 ∧ m.operandClass.fits (immField w).toNat) := by
  simp only [mem_opcodeTable_iff, forall_exists_index, forall_apply_eq_imp_iff, Mnemonic.row_selectedBy_iff, not_and]

/-- A number fits a class where its bits above the class's operand are zero (R54). -/
theorem OperandClass.fits_iff_getLsbD (c : OperandClass) (v : Word) :
    c.fits v.toNat ↔ ∀ k, c.bits ≤ k → v.getLsbD k = false := by
  constructor
  · intro h k hk
    exact Nat.testBit_lt_two_pow (h.trans_le (Nat.pow_le_pow_right (by decide) hk))
  · exact Nat.lt_pow_two_of_testBit _

/-- The reserved `OP` values of R57. -/
abbrev ReservedOp (op : Nat) : Prop :=
  (0x04 ≤ op ∧ op ≤ 0x0F) ∨ (0x15 ≤ op ∧ op ≤ 0x1F) ∨ (0x22 ≤ op ∧ op ≤ 0x2F) ∨ (0x36 ≤ op ∧ op ≤ 0xFF)

/-- No command has a reserved `OP` (R57). -/
theorem Mnemonic.op_not_reserved (m : Mnemonic) : ¬ ReservedOp m.op.toNat := by
  cases m <;> decide

end Sys2Proof

namespace Sys2Proof.Machine

/-! ### The command port over all words -/

/-- A word that decodes to no command raises ILLEGAL_COMMAND and writes nothing else (R56, R100). -/
theorem execWord_of_not_decodes {w : CommandWord} (h : ∀ i, Sys2Proof.decode w ≠ .ok i) (s : State) :
    execWord w s = .next { s with err := 4 } := by
  obtain ⟨i, hi, -⟩ | ⟨_, -, he⟩ := execWord_cases w s
  · exact absurd hi (h i)
  · exact he

/-- A word whose `OP` is in no row is an illegal word, cause (a) of R56. -/
theorem execWord_of_op_in_no_row {w : CommandWord} (h : ∀ m : Mnemonic, m.op ≠ opField w) (s : State) :
    execWord w s = .next { s with err := 4 } :=
  execWord_of_not_decodes (fun i hi => h i.mnemonic (decode_mnemonic_op hi)) s

/-- A word that a row with its `OP` does not accept is an illegal word, cause (b) of R56. -/
theorem execWord_of_bad_fields {w : CommandWord} {m : Mnemonic} (hop : m.op = opField w)
    (h : ¬ (rsvField w = 0 ∧ m.operandClass.fits (immField w).toNat)) (s : State) :
    execWord w s = .next { s with err := 4 } :=
  execWord_of_not_decodes (fun _ hi => h (fields_of_decode hop hi)) s

/-- Settles O2: a row selects by the fields that the decoder reads; without a row the `OP` of the word says which of
the two causes applies. -/
theorem everyWordIsItsRowsCommandOrIllegal : Obligations.EveryWordIsItsRowsCommandOrIllegal := by
  intro w s
  refine ⟨fun r hr hsel => ?_, fun hnone => ?_, ?_⟩
  · obtain ⟨m, rfl⟩ := (mem_opcodeTable_iff r).1 hr
    obtain ⟨hop, hrsv, hfits⟩ := (m.row_selectedBy_iff w).1 hsel
    have hdec := decode_of_fields hop hrsv hfits
    exact ⟨_, hdec, instrOf_mnemonic m _, execWord_of_decode_ok hdec s⟩
  · refine execWord_of_not_decodes (fun i hi => ?_) s
    have hop := decode_mnemonic_op hi
    exact (no_row_selectedBy_iff w).1 hnone i.mnemonic hop (fields_of_decode hop hi)
  · rw [no_row_selectedBy_iff]
    constructor
    · intro hnone
      by_cases hrow : ∃ m : Mnemonic, m.op = opField w
      · obtain ⟨m, hop⟩ := hrow
        exact .inr ⟨m, hop, (not_and_or.1 (hnone m hop)).imp_right Nat.le_of_not_lt⟩
      · exact .inl (not_exists.1 hrow)
    · rintro (hnone | ⟨n, hn, hbits⟩) m hop ⟨hrsv, hfits⟩
      · exact hnone m hop
      · obtain rfl : m = n := Mnemonic.op_injective (hop.trans hn.symm)
        exact hbits.elim (· hrsv) hfits.not_ge

/-- Settles O6: the bits that must be zero are those that `fits` and `RSV` speak of, and the decoder's command has
`IMM16` as its operand. -/
theorem operandIsTheZeroExtendedLowField : Obligations.OperandIsTheZeroExtendedLowField := by
  refine ⟨rfl, rfl, rfl, rfl, fun w m hop => ?_⟩
  have hbits := m.operandClass.fits_iff_getLsbD (immField w)
  constructor
  · rintro ⟨hrsv, hzero⟩
    have hfits := hbits.2 hzero
    exact ⟨_, decode_of_fields hop hrsv hfits, instrOf_mnemonic m _, operandOf_instrOf m _ hfits⟩
  · intro hbad
    exact execWord_of_bad_fields hop fun ⟨hrsv, hfits⟩ => hbad ⟨hrsv, hbits.1 hfits⟩

/-! ### The only no-op -/

/-- No operand makes CRC_UPD keep every CRC: folding a word into itself gives 0, and folding 0 into 1 does not give 1. -/
theorem exists_crcWord_ne (w : Word) : ∃ c, crcWord c w ≠ c := by
  by_cases hw : w = 0
  · subst hw
    exact ⟨1, by decide +kernel⟩
  · have hzero : crcWord w w = 0 := by
      rw [crcWord, BitVec.xor_self]
      decide +kernel
    exact ⟨w, hzero ▸ Ne.symm hw⟩

/-- Every command but NOP does, from some state, more than write OK: it writes another register or raises (R57). -/
theorem exists_exec_ne_noOp (i : Instr) (hi : i ≠ .nop) :
    ∃ s t, exec i s = .next t ∧ t ≠ { s with err := 0 } := by
  cases i with
  | nop => exact absurd rfl hi
  | crcInit => exact ⟨{ State.reset with crc := 0 }, _, exec_crcInit _, ne_of_apply_ne State.crc (by decide)⟩
  | crcUpd w =>
    obtain ⟨c, hc⟩ := exists_crcWord_ne w
    exact ⟨{ State.reset with crc := c }, _, exec_crcUpd _ w, ne_of_apply_ne State.crc hc⟩
  | crcChk w =>
    refine ⟨{ State.reset with crc := w }, _, exec_crcChk _ w, ne_of_apply_ne State.matched ?_⟩
    simp [matchFlag, State.reset]
  | setDir b => exact ⟨{ State.reset with dir := b + 1 }, _, exec_setDir _ b, ne_of_apply_ne State.dir (by simp)⟩
  | setAddr w => exact ⟨{ State.reset with addr := w + 1 }, _, exec_setAddr _ w, ne_of_apply_ne State.addr (by simp)⟩
  | setVal w => exact ⟨{ State.reset with value := w + 1 }, _, exec_setVal _ w, ne_of_apply_ne State.value (by simp)⟩
  | setMtype w =>
    exact ⟨{ State.reset with mtype := w + 1 }, _, exec_setMtype _ w, ne_of_apply_ne State.mtype (by simp)⟩
  | setFmt b => exact ⟨State.reset, _, exec_setFmt _ b, ne_of_apply_ne State.fmtv (by simp [State.reset])⟩
  | pktClr => exact ⟨{ State.reset with plen := 1 }, _, exec_pktClr _, ne_of_apply_ne State.plen (by decide)⟩
  | pktPush b =>
    refine ⟨State.reset, _, exec_pktPush _ b, ne_of_apply_ne State.plen ?_⟩
    rw [complete_plen, pushByte_plen]
    decide
  | encC => exact ⟨State.reset, _, exec_encC _, ne_of_apply_ne State.plen (by decide)⟩
  | encF => exact ⟨State.reset, _, exec_encF _, ne_of_apply_ne State.plen (by decide)⟩
  | decC => exact ⟨State.reset, _, exec_decC _, ne_of_apply_ne State.err (by decide)⟩
  | decF => exact ⟨State.reset, _, exec_decF _, ne_of_apply_ne State.err (by decide)⟩
  | encode => exact ⟨State.reset, _, exec_encode _, ne_of_apply_ne State.err (by decide)⟩
  | decode => exact ⟨State.reset, _, exec_decode _, ne_of_apply_ne State.err (by decide)⟩

/-- A word that acts as a no-op in every state decodes to NOP (R57). -/
theorem decode_eq_nop_of_noOp {w : CommandWord} (h : ∀ s, execWord w s = .next { s with err := 0 }) :
    Sys2Proof.decode w = .ok .nop := by
  obtain ⟨i, hi, -⟩ | ⟨_, -, he⟩ := execWord_cases w State.reset
  · by_cases hnop : i = .nop
    · rw [hi, hnop]
    · obtain ⟨s, t, ht, hne⟩ := exists_exec_ne_noOp i hnop
      rw [← execWord_of_decode_ok hi, h] at ht
      exact absurd (Host.Outcome.next.inj ht).symm hne
  · rw [h] at he
    exact absurd (congrArg State.err (Host.Outcome.next.inj he)) (by decide)

/-- Settles O5: no row has a reserved `OP`; a word that acts as a no-op decodes to NOP, and NOP has one word. -/
theorem reservedOpcodesAreIllegalAndNopIsTheOnlyNoOp :
    Obligations.ReservedOpcodesAreIllegalAndNopIsTheOnlyNoOp := by
  refine fun w => ⟨fun hres => ?_, fun h => ?_, ?_⟩
  · exact execWord_of_op_in_no_row fun m hop => m.op_not_reserved (hop ▸ hres)
  · exact (encode_of_decode (decode_eq_nop_of_noOp h)).symm
  · rintro rfl
    have hnop : Sys2Proof.decode 0x00000000 = .ok .nop := by decide
    exact fun s => (execWord_of_decode_ok hnop s).trans (exec_nop s)

/-! ### The address word and the two packet formats -/

/-- The low byte of an address word is the address's own (R58). -/
theorem extract_lo_addrWord (d : BitVec 1) (a : Word) :
    (addrWord d a).extractLsb' 0 8 = a.extractLsb' 0 8 := by
  apply BitVec.eq_of_getLsbD_eq
  intro k hk
  simp only [BitVec.getLsbD_extractLsb', Nat.zero_add, getLsbD_addrWord d a k (by omega), if_neg (show k ≠ 15 by omega)]

/-- The high byte of an address word: the direction above bits 14:8 of the address (R58). -/
theorem extract_hi_addrWord (d : BitVec 1) (a : Word) :
    (addrWord d a).extractLsb' 8 8 = d ++ a.extractLsb' 8 7 := by
  apply BitVec.eq_of_getLsbD_eq
  intro k hk
  have happ : BitVec.getLsbD (d ++ a.extractLsb' 8 7 : Byte) k =
      if k < 7 then (a.extractLsb' 8 7).getLsbD k else d.getLsbD (k - 7) := BitVec.getLsbD_append
  rw [happ, BitVec.getLsbD_extractLsb', BitVec.getLsbD_extractLsb', getLsbD_addrWord d a _ (by omega)]
  rcases Nat.lt_or_ge k 7 with h | h
  · simp [h, hk, show 8 + k ≠ 15 by omega]
  · obtain rfl : k = 7 := by omega
    simp

/-- The direction in a word of two bytes is the top bit of the high byte (R58). -/
theorem dirOfAddrWord_append (hi lo : Byte) : dirOfAddrWord (hi ++ lo) = hi.extractLsb' 7 1 := by
  apply BitVec.eq_of_getLsbD_eq
  intro k hk
  simp only [dirOfAddrWord, Config.block_dirBit, BitVec.getLsbD_extractLsb', getLsbD_append_bytes]
  simp [show k = 0 by omega]

/-- The address in a word of two bytes: the other seven bits of the high byte, and the low byte (R58). -/
theorem addrOfAddrWord_append (hi lo : Byte) : addrOfAddrWord (hi ++ lo) = hi.extractLsb' 0 7 ++ lo := by
  apply BitVec.eq_of_getLsbD_eq
  intro k hk
  have happ : BitVec.getLsbD (hi.extractLsb' 0 7 ++ lo : Address) k =
      if k < 8 then lo.getLsbD k else (hi.extractLsb' 0 7).getLsbD (k - 8) := BitVec.getLsbD_append
  rw [happ, addrOfAddrWord, BitVec.getLsbD_extractLsb', getLsbD_append_bytes, BitVec.getLsbD_extractLsb']
  simp [hk, show k - 8 < 7 by omega]

/-- The direction comes back from an address word (R58). -/
theorem dirOfAddrWord_addrWord (d : BitVec 1) (a : Word) : dirOfAddrWord (addrWord d a) = d := by
  apply BitVec.eq_of_getLsbD_eq
  intro k hk
  obtain rfl : k = 0 := by omega
  rw [dirOfAddrWord, Config.block_dirBit, BitVec.getLsbD_extractLsb', getLsbD_addrWord d a _ (by omega)]
  simp

/-- The low fifteen bits of the address come back from an address word (R58, R73). -/
theorem addrOfAddrWord_addrWord (d : BitVec 1) (a : Word) :
    addrOfAddrWord (addrWord d a) = a.extractLsb' 0 15 := by
  apply BitVec.eq_of_getLsbD_eq
  intro k hk
  simp only [addrOfAddrWord, BitVec.getLsbD_extractLsb', Nat.zero_add, getLsbD_addrWord d a k (by omega),
    if_neg (show k ≠ 15 by omega)]

/-- Bit 15 of the address does not reach the address word (R73). -/
theorem addrWord_xor_bit15 (d : BitVec 1) (a : Word) : addrWord d (a ^^^ 0x8000) = addrWord d a := by
  have hlow : ∀ k, k < 15 → (0x8000#16).getLsbD k = false := by decide
  apply BitVec.eq_of_getLsbD_eq
  intro k hk
  rw [getLsbD_addrWord _ _ k hk, getLsbD_addrWord _ _ k hk]
  split
  · rfl
  · rw [BitVec.getLsbD_xor, BitVec.ofNat_eq_ofNat, hlow k (by omega), Bool.xor_false]

/-- Settles O32: by the model's own constants, the two fields of an address word, and bit 15 outside the mask. -/
theorem addressWordMasksTheAddress : Obligations.AddressWordMasksTheAddress := fun d a =>
  ⟨rfl, dirOfAddrWord_addrWord d a, addrOfAddrWord_addrWord d a, addrWord_xor_bit15 d a⟩

/-- Bytes of another length than four are no compact packet (R75). -/
theorem decodeCompact_of_length_ne {bs : List Byte} (h : bs.length ≠ 4) :
    decodeCompact bs = .error .invalidLength := by
  unfold decodeCompact
  split
  · exact absurd rfl h
  · rfl

/-- Bytes of another length than ten are no framed packet (R81). -/
theorem decodeFramed_of_length_ne {hc : Bool} {bs : List Byte} (h : bs.length ≠ 10) :
    decodeFramed hc bs = .error .invalidLength := by
  unfold decodeFramed
  split
  · exact absurd rfl h
  · rfl

/-- Settles O33: the packet is the bytes of the address word and of the value, low byte first, and the decode reads the
address word's two fields. -/
theorem compactPacketLayout : Obligations.CompactPacketLayout := by
  refine ⟨fun d a v => ?_, fun b0 b1 b2 b3 => ?_, fun bs => decodeCompact_of_length_ne⟩
  · rw [← extract_lo_addrWord d a, ← extract_hi_addrWord d a]
    rfl
  · rw [← dirOfAddrWord_append b1 b0, ← addrOfAddrWord_append, ← fromBe_eq_append, ← fromBe_eq_append]
    rfl

/-- Settles O37: the packet is the bytes of its five words, high byte first; ten bytes are five words, checked by their
CRC and then by their header. -/
theorem framedPacketLayout : Obligations.FramedPacketLayout := by
  refine ⟨fun mt d a v => ?_, fun hc b0 b1 b2 b3 b4 b5 b6 b7 b8 b9 => ?_, fun hc bs => decodeFramed_of_length_ne⟩
  · rw [← extract_lo_addrWord d a, ← extract_hi_addrWord d a]
    rfl
  · rw [← dirOfAddrWord_append b4 b5, ← addrOfAddrWord_append]
    simp only [← fromBe_eq_append]
    split
    case isTrue hcrc => exact decodeFramedWords_crcMismatch _ _ _ _ _ _ hcrc
    case isFalse hcrc => exact decodeFramedWords_of_crc _ _ _ _ _ _ (not_not.1 hcrc)

/-! ### The pseudo-instructions -/

/-- A value of a class's width fits the class (R54). -/
theorem fits_toNat (c : OperandClass) (x : BitVec c.bits) : c.fits x.toNat := x.isLt

/-- The encoder's word is the assembler's word for the same operand (R62). -/
theorem encode_eq_asmWord (i : Instr) : encode i = asmWord i.mnemonic (operandOf i).toNat := by
  rw [asmWord, encode, BitVec.ofNat_toNat]

/-- A list of words is a well formed CRC_WORDS line (R62, R63). -/
theorem wf_crcWords (ws : List Word) : (AsmLine.crcWords (ws.map BitVec.toNat)).wf = true := by
  rw [AsmLine.wf, List.all_map, List.all_eq_true]
  exact fun w _ => decide_eq_true (fits_toNat .i16 w)

/-- A list of bytes is a well formed PKT_LOAD line (R62, R63). -/
theorem wf_pktLoad (bs : List Byte) : (AsmLine.pktLoad (bs.map BitVec.toNat)).wf = true := by
  rw [AsmLine.wf, List.all_map, List.all_eq_true]
  exact fun b _ => decide_eq_true (fits_toNat .i8 b)

/-- A bit and two words are a well formed SET_TXN line (R62, R63). -/
theorem wf_setTxn (d : BitVec 1) (a v : Word) : (AsmLine.setTxn d.toNat a.toNat v.toNat).wf = true :=
  decide_eq_true ⟨fits_toNat .i1 d, fits_toNat .i16 a, fits_toNat .i16 v⟩

/-- Settles O57: operands that are words, bytes and bits fit their classes, so no line is refused, and the assembler's
words are the encoder's. -/
theorem pseudoInstructionsExpand : Obligations.PseudoInstructionsExpand := by
  refine ⟨fun ws => ?_, fun bs => ?_, fun d a v => ?_⟩
  · rw [assembleLine, if_pos (wf_crcWords ws)]
    simp only [encode_eq_asmWord, List.map_map]
    rfl
  · rw [assembleLine, if_pos (wf_pktLoad bs)]
    simp only [encode_eq_asmWord, List.map_map]
    rfl
  · rw [assembleLine, if_pos (wf_setTxn d a v)]
    simp only [encode_eq_asmWord]
    rfl

end Sys2Proof.Machine
end

section
/-! PROOF. The Checksum Engine (40_checksum.md R64 to R67, R70 to R72), and how a command is encoded, for all commands. -/

namespace Sys2Proof

/-! ### The encoding of a command, by its mnemonic -/

/-- The match column of R55 is the `OP` in bits 31:24. -/
theorem Mnemonic.pattern_eq_op_shiftLeft (m : Mnemonic) : m.pattern = m.op.setWidth 32 <<< 24 := by
  cases m <;> rfl

/-- The `OP` of a match value is that of its row (R55). -/
theorem Mnemonic.opField_pattern (m : Mnemonic) : opField m.pattern = m.op := by
  cases m <;> rfl

/-- No class has an operand wider than `IMM16` (R54). -/
theorem OperandClass.bits_le (c : OperandClass) : c.bits ≤ 16 := by
  cases c <;> decide

/-- The low bits of a number that fits its class are the whole number (R54). -/
theorem OperandClass.setWidth_setWidth_of_fits {c : OperandClass} {imm : Word} (h : c.fits imm.toNat) :
    (imm.setWidth c.bits).setWidth 32 = imm.setWidth 32 := by
  apply BitVec.eq_of_toNat_eq
  rw [BitVec.toNat_setWidth, BitVec.toNat_setWidth, Nat.mod_eq_of_lt h, BitVec.toNat_setWidth]

/-- An operand of a class's width, zero-extended to `IMM16`, fits the class (R54). -/
theorem OperandClass.fits_setWidth (c : OperandClass) (x : BitVec c.bits) : c.fits (x.setWidth 16).toNat := by
  rw [OperandClass.fits, BitVec.toNat_setWidth_of_le c.bits_le]
  exact x.isLt

/-- A word of a mnemonic's pattern and an operand of its class decodes to the mnemonic's command (R54, R55). -/
theorem decode_pattern_or (m : Mnemonic) (x : BitVec m.operandClass.bits) :
    decode (m.pattern ||| x.setWidth 32) = .ok (instrOf m (x.setWidth 16)) := by
  have hword : m.pattern ||| x.setWidth 32 = (m.op.setWidth 32 <<< 24) ||| (x.setWidth 16).setWidth 32 := by
    rw [m.pattern_eq_op_shiftLeft, BitVec.setWidth_setWidth fun h => h.1.not_ge m.operandClass.bits_le]
  have hfits := m.operandClass.fits_setWidth x
  rw [hword, decode_of_fields (opField_word _ _).symm (rsvField_word _ _) (by rwa [immField_word]), immField_word]

/-- A decoded word is the pattern of the row of its `OP` and an operand of the row's class (R54, R55). -/
theorem eq_pattern_or_of_decode {w : CommandWord} {m : Mnemonic} {i : Instr} (hop : m.op = opField w)
    (h : decode w = .ok i) : ∃ x : BitVec m.operandClass.bits, w = m.pattern ||| x.setWidth 32 := by
  obtain ⟨hrsv, hfits⟩ := fields_of_decode hop h
  refine ⟨(immField w).setWidth _, ?_⟩
  rw [OperandClass.setWidth_setWidth_of_fits hfits, m.pattern_eq_op_shiftLeft, hop, word_of_fields w hrsv]

end Sys2Proof

namespace Sys2Proof.Machine

/-- Every mnemonic encodes its commands by its pattern and its class, once the command is the one that the decoder
builds from `IMM16` (R54 to R56). -/
theorem encodedAs_of_mnemonic (m : Mnemonic) {mk : BitVec m.operandClass.bits → Instr}
    (hmk : ∀ x, instrOf m (x.setWidth 16) = mk x) : EncodedAs m.operandClass.bits m.pattern mk := by
  constructor
  · exact fun x => hmk x ▸ decode_pattern_or m x
  · intro w s hop hne
    have hrow : m.op = opField w := m.opField_pattern.symm.trans hop.symm
    refine execWord_of_not_decodes (fun i hi => ?_) s
    obtain ⟨x, hx⟩ := eq_pattern_or_of_decode hrow hi
    exact hne x hx

/-! ### The CRC function (R64 to R67) -/

/-- Folding a word is one XOR and sixteen shift steps (R65). -/
theorem crcWord_eq_iterate (c w : Word) : crcWord c w = crcStep^[16] (c ^^^ w) :=
  crcShift_eq_iterate 16 (c ^^^ w)

/-- A running value folded into itself leaves zero, which no shift step changes. -/
theorem crcWord_self (c : Word) : crcWord c c = 0 := by
  have hstep : crcStep 0 = 0 := by decide
  rw [crcWord_eq_iterate, BitVec.xor_self]
  exact Function.iterate_fixed hstep 16

/-- `compute` of more words goes on from `compute` of the words before them (R66). -/
theorem compute_append (ws vs : List Word) : compute (ws ++ vs) = vs.foldl crcWord (compute ws) :=
  List.foldl_append

/-- `verify` compares `compute` with the expected checksum (R67). -/
theorem verify_iff (ws : List Word) (e : Word) : verify ws e = true ↔ compute ws = e :=
  beq_iff_eq

/-- Settles O24: the functions by the rules above, with the constants of R64 to R66. -/
theorem crcFunctions : Obligations.CrcFunctions :=
  ⟨fun _ => rfl, crcWord_eq_iterate, rfl, fun ws w => compute_append ws [w], verify_iff⟩

/-! ### CRC_INIT, CRC_UPD and CRC_CHK (R70 to R72) -/

/-- A flag that says whether CRC is the expected checksum says what `verify` says (R67, R72). -/
theorem matchFlag_compute (ws : List Word) (e : Word) :
    matchFlag (compute ws) e = if verify ws e then 1 else 0 := by
  simp only [matchFlag, verify_iff]

/-- CRC_UPDs after a completed command fold their operands in order and change nothing else (R30, R71). -/
theorem execList_map_crcUpd (ws : List Word) (s : State) :
    execList (ws.map .crcUpd) (complete s) = .next (complete { s with crc := ws.foldl crcWord s.crc }) := by
  induction ws generalizing s with
  | nil => rfl
  | cons w ws ih => exact ih { s with crc := crcWord s.crc w }

/-- CRC_WORDS leaves `compute` of its words in CRC (R30, R63). -/
theorem execList_crcWords (ws : List Word) (s : State) :
    execList (crcWords ws) s = .next { s with crc := compute ws, err := 0 } :=
  execList_map_crcUpd ws { s with crc := 0xFFFF }

/-- Settles O28: the encoding of class N, and the command's own next state. -/
theorem crcInitLoadsTheSeed : Obligations.CrcInitLoadsTheSeed :=
  ⟨encodedAs_of_mnemonic .crcInit fun _ => rfl, exec_crcInit⟩

/-- Settles O29: the command's own next state; CRC itself as the operand folds to zero; and the two corner cases are
folds into the seed. -/
theorem crcUpdFoldsItsOperand : Obligations.CrcUpdFoldsItsOperand := by
  refine ⟨encodedAs_of_mnemonic .crcUpd fun _ => rfl, fun s imm16 => ⟨?_, ?_⟩, fun s hseed => ⟨?_, ?_⟩⟩
  · rw [exec_crcUpd, crcWord_eq_iterate]
    rfl
  · rintro rfl
    rw [exec_crcUpd, crcWord_self]
    rfl
  · have hfold : crcWord 0xFFFF 0x0000 = 0xF0B8 := by decide +kernel
    rw [exec_crcUpd, hseed, hfold]
    rfl
  · have hfold : crcWord 0xFFFF 0xAA55 = 0x57A7 := by decide +kernel
    rw [exec_crcUpd, hseed, hfold]
    rfl

/-- Settles O30: the command's own next state; after CRC_WORDS the CRC is `compute` of the words, so the comparison is
`verify`, and one more CRC_UPD of that value leaves zero. -/
theorem crcChkComparesWithTheAccumulator : Obligations.CrcChkComparesWithTheAccumulator := by
  refine ⟨encodedAs_of_mnemonic .crcChk fun _ => rfl, exec_crcChk, fun s => rfl, fun ws e s => ?_, fun ws s => ?_⟩
  · rw [execList_append _ _ _ _ (execList_crcWords ws s), ← matchFlag_compute]
    rfl
  · rw [execList_append _ _ _ _ (execList_crcWords ws s), execList, exec_crcUpd, crcWord_self]
    rfl

end Sys2Proof.Machine
end

section
/-! PROOF. The compact codec's commands, ENC_C and DEC_C (41_compact_codec.md R78, R79). -/

namespace Sys2Proof.Machine

/-! ### A packet stored in the buffer -/

/-- A packet that fits the buffer stands at its front once it is stored (R78, R86). -/
theorem bufferPrefix_storePacket {bs : List Byte} (hlen : bs.length ≤ 10) (s : State) :
    bufferPrefix bs.length (storePacket bs s) = bs := by
  apply List.ext_getElem
  · rw [length_bufferPrefix, Nat.min_eq_left hlen]
  · intro k _ hk
    rw [getElem_bufferPrefix, pktByte_storePacket, dif_pos hk]

/-! ### ENC_C (R78) -/

/-- ENC_C's body writes the buffer, PLEN and ERR only (R78). -/
theorem performEncC_frame (s : State) :
    performEncC s = { s with pkt := (performEncC s).pkt, plen := 4, err := 0 } := by
  rw [performEncC_eq]

/-- The first four bytes after ENC_C's body are the compact packet (R74, R78). -/
theorem firstBytes_performEncC (s : State) :
    [pktByte (performEncC s) 0, pktByte (performEncC s) 1, pktByte (performEncC s) 2, pktByte (performEncC s) 3] =
      encodeCompact s.dir s.addr s.value := by
  rw [← bufferPrefix_four]
  exact bufferPrefix_storePacket (bs := encodeCompact s.dir s.addr s.value) (by simp) s

/-- The bytes behind the compact packet keep their values (R78). -/
theorem pktByte_performEncC_of_four_le {k : Fin 10} (hk : 4 ≤ k) (s : State) :
    pktByte (performEncC s) k = pktByte s k := by
  have hlen : ¬ k.val < (encodeCompact s.dir s.addr s.value).length := hk.not_gt
  rw [pktByte_performEncC, dif_neg hlen]

/-- Settles O35: the encoding of class N; ENC_C's body stores the four bytes of the packet and keeps the bytes behind
them. -/
theorem encCStoresTheCompactPacket : Obligations.EncCStoresTheCompactPacket := by
  refine ⟨encodedAs_of_mnemonic .encC fun _ => rfl, fun s => ?_⟩
  exact ⟨performEncC s, exec_encC s, performEncC_frame s, firstBytes_performEncC s,
    fun _ hk => pktByte_performEncC_of_four_le hk s⟩

/-! ### DEC_C (R79) -/

/-- Four bytes are always a compact packet: the format has no checksum and no header (R75). -/
theorem exists_decodeCompact_four (b0 b1 b2 b3 : Byte) : ∃ r, decodeCompact [b0, b1, b2, b3] = .ok r :=
  ⟨_, rfl⟩

/-- Settles O36: with PLEN 4 the buffer's first four bytes decode and DEC_C loads what they say; with another PLEN it
raises. -/
theorem decCLoadsTheTransaction : Obligations.DecCLoadsTheTransaction := by
  refine ⟨encodedAs_of_mnemonic .decC fun _ => rfl, fun s => ⟨fun hplen => ?_, fun hplen => ?_⟩⟩
  · obtain ⟨r, hr⟩ := exists_decodeCompact_four (pktByte s 0) (pktByte s 1) (pktByte s 2) (pktByte s 3)
    refine ⟨r, hr, ?_⟩
    rw [exec_decC, performDecC_of_ok s hplen r (bufferPrefix_four s ▸ hr)]
    rfl
  · rw [exec_decC, performDecC_of_plen_ne s hplen]

end Sys2Proof.Machine
end

section
/-! PROOF. The framed codec's commands, ENC_F and DEC_F (42_framed_codec.md R86, R87). -/

namespace Sys2Proof.Machine

/-! ### ENC_F (R86) -/

/-- ENC_F's body writes the buffer, PLEN and ERR only (R86). -/
theorem performEncF_frame (s : State) :
    performEncF s = { s with pkt := (performEncF s).pkt, plen := 10, err := 0 } := by
  rw [performEncF_eq]

/-- A packet of ten bytes fills the buffer once it is stored (R86). -/
theorem toList_pkt_storePacket {bs : List Byte} (hlen : bs.length = 10) (s : State) :
    (storePacket bs s).pkt.toList = bs := by
  rw [toList_pkt, ← hlen]
  exact bufferPrefix_storePacket hlen.le s

/-- The whole buffer after ENC_F's body is the framed packet (R80, R86). -/
theorem toList_pkt_performEncF (s : State) :
    (performEncF s).pkt.toList = encodeFramed s.mtype s.dir s.addr s.value := by
  rw [performEncF, complete_pkt]
  exact toList_pkt_storePacket (length_encodeFramed _ _ _ _) s

/-- Settles O41: the encoding of class N; ENC_F's body fills the buffer with the ten bytes of the packet. -/
theorem encFStoresTheFramedPacket : Obligations.EncFStoresTheFramedPacket := by
  refine ⟨encodedAs_of_mnemonic .encF fun _ => rfl, fun s => ?_⟩
  exact ⟨performEncF s, exec_encF s, performEncF_frame s, toList_pkt_performEncF s⟩

/-! ### DEC_F (R87) -/

/-- With PLEN 10, an error of the codec on the whole buffer is raised by DEC_F and nothing else is written (R87). -/
theorem exec_decF_of_error {s : State} (hplen : s.plen = 10) {e : CodecError}
    (he : decodeFramed true s.pkt.toList = .error e) :
    exec .decF s = .next { s with err := statusBits (codecStatus e) } := by
  rw [exec_decF, performDecF_of_error s hplen e (toList_pkt s ▸ he), raise_eq]

/-- With PLEN 10, the fields of a good packet in the buffer are loaded by DEC_F (R87). -/
theorem exec_decF_of_ok {s : State} (hplen : s.plen = 10) {r : FramedFields}
    (hr : decodeFramed true s.pkt.toList = .ok r) : exec .decF s = .next (complete (loadFramed r s)) := by
  rw [exec_decF, performDecF_of_ok s hplen r (toList_pkt s ▸ hr)]

/-- Settles O42: the encoding of class N; another PLEN raises before the codec is asked, and with PLEN 10 the codec's
answer on the whole buffer says which error is raised or what is loaded. -/
theorem decFLoadsTheTransaction : Obligations.DecFLoadsTheTransaction := by
  refine ⟨encodedAs_of_mnemonic .decF fun _ => rfl, fun s => ⟨?invalidLength, ?crcMismatch, ?badHeader, ?good⟩⟩
  case invalidLength =>
    intro hplen
    rw [exec_decF, performDecF_of_plen_ne s hplen]
  case crcMismatch => exact fun hplen he => exec_decF_of_error hplen he
  case badHeader => exact fun hplen he => exec_decF_of_error hplen he
  case good => exact fun _ hplen hr => exec_decF_of_ok hplen hr

end Sys2Proof.Machine
end

section
/-! PROOF. The session's format, the register loads, the packet buffer and NOP (43_session_and_load.md R88 to R97). -/

namespace Sys2Proof

/-- One bit, zero-extended to `IMM16`, is the operand that SET_FMT and SET_DIR take from it (R54). -/
theorem instrOf_setFmt (b : BitVec 1) : instrOf .setFmt (b.setWidth 16) = .setFmt b :=
  congrArg Instr.setFmt (BitVec.setWidth_setWidth_of_le b (by decide))

theorem instrOf_setDir (b : BitVec 1) : instrOf .setDir (b.setWidth 16) = .setDir b :=
  congrArg Instr.setDir (BitVec.setWidth_setWidth_of_le b (by decide))

/-- One byte, zero-extended to `IMM16`, is the operand that PKT_PUSH takes from it (R54). -/
theorem instrOf_pktPush (b : Byte) : instrOf .pktPush (b.setWidth 16) = .pktPush b :=
  congrArg Instr.pktPush (BitVec.setWidth_setWidth_of_le b (by decide))

end Sys2Proof

namespace Sys2Proof.Machine

/-! ### What the decode bodies read -/

/-- DEC_C's body on two states with the same packet: a change `f` of the other registers passes through it, where it
passes through both of its outcomes (R79). -/
theorem performDecC_map {s s' : State} {f : State → State} (hpkt : s'.pkt = s.pkt) (hplen : s'.plen = s.plen)
    (hraise : raise .invalidLength s' = f (raise .invalidLength s))
    (hload : ∀ r, complete (loadCompact r s') = f (complete (loadCompact r s))) :
    performDecC s' = f (performDecC s) := by
  obtain ⟨hlen, h⟩ | ⟨hlen, r, hr, h⟩ := performDecC_cases s
  · have hne : s'.plen ≠ 4 := hplen ▸ mt (plen_eq_iff s 4 (by omega)).1 hlen
    rw [h, ← hraise]
    exact performDecC_of_plen_ne s' hne
  · have h4 : s'.plen = 4 := hplen ▸ (plen_eq_iff s 4 (by omega)).2 hlen
    rw [h, ← hload]
    exact performDecC_of_ok s' h4 r (by rwa [bufferPrefix, hpkt])

/-- DEC_F's body on two states with the same packet, likewise (R87). -/
theorem performDecF_map {s s' : State} {f : State → State} (hpkt : s'.pkt = s.pkt) (hplen : s'.plen = s.plen)
    (hraise : ∀ e, raise e s' = f (raise e s))
    (hload : ∀ r, complete (loadFramed r s') = f (complete (loadFramed r s))) :
    performDecF s' = f (performDecF s) := by
  obtain ⟨hlen, h⟩ | ⟨hlen, e, he, h⟩ | ⟨hlen, r, hr, h⟩ := performDecF_cases s
  · have hne : s'.plen ≠ 10 := hplen ▸ mt (plen_eq_iff s 10 (by omega)).1 hlen
    rw [h, ← hraise]
    exact performDecF_of_plen_ne s' hne
  · have h10 : s'.plen = 10 := hplen ▸ (plen_eq_iff s 10 (by omega)).2 hlen
    rw [h, ← hraise]
    exact performDecF_of_error s' h10 e (by rwa [bufferPrefix, hpkt])
  · have h10 : s'.plen = 10 := hplen ▸ (plen_eq_iff s 10 (by omega)).2 hlen
    rw [h, ← hload]
    exact performDecF_of_ok s' h10 r (by rwa [bufferPrefix, hpkt])

/-! ### SET_FMT (R88) -/

/-- `s` with another session format. -/
def State.withFormat (s : State) (f v : BitVec 1) : State := { s with fmt := f, fmtv := v }

/-- A body that neither reads nor writes FMT and FMTV. -/
def FormatBlind (g : State → State) : Prop := ∀ (s : State) f v, g (s.withFormat f v) = (g s).withFormat f v

theorem formatBlind_performEncC : FormatBlind performEncC := fun _ _ _ => rfl

theorem formatBlind_performEncF : FormatBlind performEncF := fun _ _ _ => rfl

theorem formatBlind_performDecC : FormatBlind performDecC := fun _ f v =>
  performDecC_map (f := (·.withFormat f v)) rfl rfl rfl fun _ => rfl

theorem formatBlind_performDecF : FormatBlind performDecF := fun _ f v =>
  performDecF_map (f := (·.withFormat f v)) rfl rfl (fun _ => rfl) fun _ => rfl

/-- The session's format, which no command changes once it is set. -/
def FormatKept (s t : State) : Prop := t.fmtv = s.fmtv ∧ t.fmt = s.fmt

/-- A body blind to the format keeps it: the format it is given may be the state's own. -/
theorem FormatBlind.formatKept {g : State → State} (hg : FormatBlind g) (s : State) : FormatKept s (g s) :=
  have hown : g s = (g s).withFormat s.fmt s.fmtv := hg s s.fmt s.fmtv
  ⟨(congrArg State.fmtv hown :), (congrArg State.fmt hown :)⟩

/-- The explicit codec commands are bodies blind to the format (R88). -/
theorem exec_formatBlind {i : Instr} (hi : i ∈ [Instr.encC, .decC, .encF, .decF]) :
    ∃ g, (∀ s, exec i s = .next (g s)) ∧ FormatBlind g := by
  simp only [List.mem_cons, List.not_mem_nil, or_false] at hi
  obtain rfl | rfl | rfl | rfl := hi
  · exact ⟨_, exec_encC, formatBlind_performEncC⟩
  · exact ⟨_, exec_decC, formatBlind_performDecC⟩
  · exact ⟨_, exec_encF, formatBlind_performEncF⟩
  · exact ⟨_, exec_decF, formatBlind_performDecF⟩

/-- Once the format is set no command changes it: SET_FMT raises, and no other command writes it (R88). -/
theorem exec_formatKept (i : Instr) {s : State} (hset : s.fmtv = 1) :
    ∃ t, exec i s = .next t ∧ FormatKept s t := by
  cases i with
  | setFmt b =>
    obtain ⟨-, h⟩ | ⟨hunset, -⟩ := exec_setFmt_cases b s
    · exact ⟨_, h, rfl, rfl⟩
    · exact absurd (hset.symm.trans hunset) (by decide)
  | encC => exact ⟨_, exec_encC s, formatBlind_performEncC.formatKept s⟩
  | decC => exact ⟨_, exec_decC s, formatBlind_performDecC.formatKept s⟩
  | encF => exact ⟨_, exec_encF s, formatBlind_performEncF.formatKept s⟩
  | decF => exact ⟨_, exec_decF s, formatBlind_performDecF.formatKept s⟩
  | encode =>
    obtain ⟨-, h⟩ | ⟨-, -, h⟩ | ⟨-, -, h⟩ := exec_encode_cases s
    · exact ⟨_, h, rfl, rfl⟩
    · exact ⟨_, h, formatBlind_performEncC.formatKept s⟩
    · exact ⟨_, h, formatBlind_performEncF.formatKept s⟩
  | decode =>
    obtain ⟨-, h⟩ | ⟨-, -, h⟩ | ⟨-, -, h⟩ := exec_decode_cases s
    · exact ⟨_, h, rfl, rfl⟩
    · exact ⟨_, h, formatBlind_performDecC.formatKept s⟩
    · exact ⟨_, h, formatBlind_performDecF.formatKept s⟩
  | nop => exact ⟨_, exec_nop s, rfl, rfl⟩
  | crcInit => exact ⟨_, exec_crcInit s, rfl, rfl⟩
  | crcUpd w => exact ⟨_, exec_crcUpd s w, rfl, rfl⟩
  | crcChk w => exact ⟨_, exec_crcChk s w, rfl, rfl⟩
  | setDir b => exact ⟨_, exec_setDir s b, rfl, rfl⟩
  | setAddr w => exact ⟨_, exec_setAddr s w, rfl, rfl⟩
  | setVal w => exact ⟨_, exec_setVal s w, rfl, rfl⟩
  | setMtype w => exact ⟨_, exec_setMtype s w, rfl, rfl⟩
  | pktClr => exact ⟨_, exec_pktClr s, rfl, rfl⟩
  | pktPush b => exact ⟨_, exec_pktPush s b, rfl, rfl⟩

/-- Settles O43: the encoding of class I1; SET_FMT by FMTV; every other command keeps a format that is set; the four
codec bodies are blind to it. -/
theorem setFmtSetsTheFormatOnce : Obligations.SetFmtSetsTheFormatOnce := by
  refine ⟨encodedAs_of_mnemonic .setFmt instrOf_setFmt, fun s b => ⟨?first, ?later, ?fixed, ?explicit⟩⟩
  case first =>
    intro hunset
    rw [exec_setFmt, if_neg (by rw [hunset]; decide)]
    rfl
  case later =>
    intro hset
    rw [exec_setFmt, if_pos hset]
    rfl
  case fixed =>
    intro i t hset ht
    obtain ⟨u, hu, hfmtv, hfmt⟩ := exec_formatKept i hset
    obtain rfl : u = t := Host.Outcome.next.inj (hu.symm.trans ht)
    exact ⟨hfmtv.trans hset, hfmt⟩
  case explicit =>
    intro i hi f v
    obtain ⟨g, hexec, hblind⟩ := exec_formatBlind hi
    exact ⟨g s, hexec s, (hexec _).trans (congrArg _ (hblind s f v))⟩

/-! ### The packet in the buffer (R31) -/

/-- The packet is as long as PLEN says, up to the ten bytes of the buffer (R31). -/
theorem length_packetBytes (s : State) : (packetBytes s).length = min s.plen.toNat 10 := by
  rw [packetBytes, length_bufferPrefix, Config.block_pktCapacity, Nat.min_assoc, Nat.min_self]

/-- With PLEN at most ten the packet is the first PLEN bytes (R31). -/
theorem packetBytes_of_plen {s : State} {n : Nat} (hn : n ≤ 10) (hplen : s.plen = BitVec.ofNat 8 n) :
    packetBytes s = bufferPrefix n s := by
  have hnat : s.plen.toNat = n := (plen_eq_iff s n (by omega)).1 hplen
  rw [packetBytes, hnat, Config.block_pktCapacity, Nat.min_eq_left hn]

/-- A stored packet is the packet in the buffer (R31, R78, R86). -/
theorem packetBytes_storePacket {bs : List Byte} (hlen : bs.length ≤ 10) (s : State) :
    packetBytes (storePacket bs s) = bs := by
  rw [packetBytes_of_plen hlen (storePacket_plen s bs), bufferPrefix_storePacket hlen]

/-- The packet does not depend on ERR. -/
theorem packetBytes_complete (s : State) : packetBytes (complete s) = packetBytes s := rfl

/-- ENC_C's body leaves the compact packet in the buffer (R78). -/
theorem packetBytes_performEncC (s : State) :
    packetBytes (performEncC s) = encodeCompact s.dir s.addr s.value := by
  rw [performEncC, packetBytes_complete, packetBytes_storePacket (by simp)]

/-- ENC_F's body leaves the framed packet in the buffer (R86). -/
theorem packetBytes_performEncF (s : State) :
    packetBytes (performEncF s) = encodeFramed s.mtype s.dir s.addr s.value := by
  rw [performEncF, packetBytes_complete, packetBytes_storePacket (by simp)]

/-- Only four bytes are a compact packet (R75). -/
theorem plen_of_decodeCompact_ok {s : State} {r : CompactFields} (hr : decodeCompact (packetBytes s) = .ok r) :
    s.plen = 4 := by
  have hlen : (packetBytes s).length = 4 := by
    by_contra hne
    rw [decodeCompact_of_length_ne hne] at hr
    cases hr
  rw [length_packetBytes] at hlen
  exact (plen_eq_iff s 4 (by omega)).2 (by omega)

/-! ### ENCODE and DECODE by the session's format (R89, R90) -/

section Session
variable {s : State}

theorem exec_encode_of_unset (hunset : s.fmtv = 0) : exec .encode s = .next { s with err := 5 } := by
  rw [exec_encode, if_pos hunset]
  rfl

theorem exec_decode_of_unset (hunset : s.fmtv = 0) : exec .decode s = .next { s with err := 5 } := by
  rw [exec_decode, if_pos hunset]
  rfl

theorem exec_encode_of_compact (hset : s.fmtv = 1) (hfmt : s.fmt = 0) :
    exec .encode s = .next (performEncC s) := by
  simp [exec_encode, hset, hfmt]

theorem exec_encode_of_framed (hset : s.fmtv = 1) (hfmt : s.fmt = 1) :
    exec .encode s = .next (performEncF s) := by
  simp [exec_encode, hset, hfmt]

theorem exec_decode_of_compact (hset : s.fmtv = 1) (hfmt : s.fmt = 0) :
    exec .decode s = .next (performDecC s) := by
  simp [exec_decode, hset, hfmt]

theorem exec_decode_of_framed (hset : s.fmtv = 1) (hfmt : s.fmt = 1) :
    exec .decode s = .next (performDecF s) := by
  simp [exec_decode, hset, hfmt]

end Session

/-- Settles O44: the encoding of class N; ENCODE performs the body that the session's format names, and that body
leaves the format's packet in the buffer. -/
theorem encodeFollowsTheSession : Obligations.EncodeFollowsTheSession := by
  refine ⟨encodedAs_of_mnemonic .encode fun _ => rfl, fun s => ⟨exec_encode_of_unset, ?compact, ?framed⟩⟩
  case compact =>
    exact fun hset hfmt => ⟨performEncC s, exec_encode_of_compact hset hfmt, exec_encC s,
      packetBytes_performEncC s, performEncC_frame s⟩
  case framed =>
    exact fun hset hfmt => ⟨performEncF s, exec_encode_of_framed hset hfmt, exec_encF s,
      packetBytes_performEncF s, performEncF_frame s⟩

/-- Settles O45: the encoding of class N; DECODE performs the body that the session's format names, and that body loads
a good packet. -/
theorem decodeFollowsTheSession : Obligations.DecodeFollowsTheSession := by
  refine ⟨encodedAs_of_mnemonic .decode fun _ => rfl,
    fun s => ⟨exec_decode_of_unset, ?compact, ?framed, ?goodCompact, ?goodFramed⟩⟩
  case compact => exact fun hset hfmt => ⟨_, exec_decode_of_compact hset hfmt, exec_decC s⟩
  case framed => exact fun hset hfmt => ⟨_, exec_decode_of_framed hset hfmt, exec_decF s⟩
  case goodCompact =>
    intro r hset hfmt hr
    have hplen := plen_of_decodeCompact_ok hr
    rw [packetBytes_of_plen (n := 4) (by omega) hplen] at hr
    rw [exec_decode_of_compact hset hfmt, performDecC_of_ok s hplen r hr]
    rfl
  case goodFramed =>
    intro r hset hfmt hplen hr
    rw [packetBytes_of_plen (n := 10) (by omega) hplen] at hr
    rw [exec_decode_of_framed hset hfmt, performDecF_of_ok s hplen r hr]
    rfl

/-! ### The loads (R91 to R94) -/

/-- Two commands, one after the other. -/
theorem execList_pair {i j : Instr} {s t u : State} (hi : exec i s = .next t) (hj : exec j t = .next u) :
    execList [i, j] s = .next u := by
  simp only [execList, hi, hj]

/-- An address that is masked already has the same address word (R73). -/
theorem addrWord_and_mask (d : BitVec 1) (a : Word) : addrWord d (a &&& 0x7FFF) = addrWord d a := by
  have hmask : addrMask = 0x7FFF := by decide
  rw [addrWord, addrWord, hmask, BitVec.and_assoc, BitVec.and_self]

/-- The compact packet does not carry bit 15 of the address (R73, R74, R92). -/
theorem encodeCompact_and_mask (d : BitVec 1) (a v : Word) :
    encodeCompact d (a &&& 0x7FFF) v = encodeCompact d a v := by
  rw [encodeCompact, encodeCompact, addrWord_and_mask]

/-- In a compact session ENCODE after SET_MTYPE differs from ENCODE without it in MTYPE alone (R94). -/
theorem exec_encode_setMtype {s : State} (hfmt : s.fmt = 0) (mt : Word) : ∃ t, exec .encode s = .next t ∧
    exec .encode (complete { s with mtype := mt }) = .next { t with mtype := mt } := by
  obtain hunset | hset := bit_cases s.fmtv
  · exact ⟨_, exec_encode_of_unset hunset, exec_encode_of_unset hunset⟩
  · exact ⟨_, exec_encode_of_compact hset hfmt, exec_encode_of_compact hset hfmt⟩

/-- In a compact session DECODE after SET_MTYPE differs from DECODE without it in MTYPE alone (R94). -/
theorem exec_decode_setMtype {s : State} (hfmt : s.fmt = 0) (mt : Word) : ∃ t, exec .decode s = .next t ∧
    exec .decode (complete { s with mtype := mt }) = .next { t with mtype := mt } := by
  obtain hunset | hset := bit_cases s.fmtv
  · exact ⟨_, exec_decode_of_unset hunset, exec_decode_of_unset hunset⟩
  · have hmap : performDecC (complete { s with mtype := mt }) = { performDecC s with mtype := mt } :=
      performDecC_map (f := fun t => { t with mtype := mt }) rfl rfl rfl fun _ => rfl
    exact ⟨_, exec_decode_of_compact hset hfmt, hmap ▸ exec_decode_of_compact hset hfmt⟩

/-- Settles O46: the encodings of class I1 and I16; the loads' own next states; the compact packet without bit 15 of the
address; and a compact session's ENCODE and DECODE, which do not read MTYPE. -/
theorem loadsWriteTheirRegister : Obligations.LoadsWriteTheirRegister := by
  refine ⟨encodedAs_of_mnemonic .setDir instrOf_setDir, encodedAs_of_mnemonic .setAddr fun _ => rfl,
    encodedAs_of_mnemonic .setVal fun _ => rfl, encodedAs_of_mnemonic .setMtype fun _ => rfl,
    exec_setDir, fun s w => ⟨exec_setAddr s w, exec_setVal s w, exec_setMtype s w⟩, ?bit15, ?mtype⟩
  case bit15 =>
    intro s a
    refine ⟨_, _, execList_pair (exec_setAddr s a) (exec_encC _), execList_pair (exec_setAddr s _) (exec_encC _), ?_⟩
    rw [packetBytes_performEncC, packetBytes_performEncC]
    exact (encodeCompact_and_mask s.dir a s.value).symm
  case mtype =>
    intro s mt hfmt i hi
    have hmtype : ∃ t, exec i s = .next t ∧
        exec i (complete { s with mtype := mt }) = .next { t with mtype := mt } := by
      simp only [List.mem_cons, List.not_mem_nil, or_false] at hi
      obtain rfl | rfl := hi
      · exact exec_encode_setMtype hfmt mt
      · exact exec_decode_setMtype hfmt mt
    obtain ⟨t, ht, ht'⟩ := hmtype
    exact ⟨t, ht, execList_pair (exec_setMtype s mt) ht'⟩

/-! ### PKT_CLR, PKT_PUSH and NOP (R95 to R97) -/

/-- DEC_C's body on an empty buffer (R95). -/
theorem performDecC_pktClr (s : State) :
    performDecC (complete { s with plen := 0 }) = { s with plen := 0, err := 1 } :=
  performDecC_of_plen_ne (complete { s with plen := 0 }) (show (0 : BitVec 8) ≠ 4 by decide)

/-- DEC_F's body on an empty buffer (R95). -/
theorem performDecF_pktClr (s : State) :
    performDecF (complete { s with plen := 0 }) = { s with plen := 0, err := 1 } :=
  performDecF_of_plen_ne (complete { s with plen := 0 }) (show (0 : BitVec 8) ≠ 10 by decide)

/-- In a session DECODE raises INVALID_LENGTH on an empty buffer, whatever the format (R95). -/
theorem exec_decode_pktClr {s : State} (hset : s.fmtv = 1) :
    exec .decode (complete { s with plen := 0 }) = .next { s with plen := 0, err := 1 } := by
  obtain hfmt | hfmt := bit_cases s.fmt
  · rw [← performDecC_pktClr]
    exact exec_decode_of_compact hset hfmt
  · rw [← performDecF_pktClr]
    exact exec_decode_of_framed hset hfmt

/-- Settles O47: the encoding of class N; the command's own next state, in which PLEN is the length of neither format. -/
theorem pktClrEmptiesTheBuffer : Obligations.PktClrEmptiesTheBuffer := by
  refine ⟨encodedAs_of_mnemonic .pktClr fun _ => rfl, fun s => ⟨exec_pktClr s, ?decC, ?decF, ?decode⟩⟩
  case decC => exact execList_pair (exec_pktClr s) (by rw [exec_decC, performDecC_pktClr])
  case decF => exact execList_pair (exec_pktClr s) (by rw [exec_decF, performDecF_pktClr])
  case decode => exact fun hset => execList_pair (exec_pktClr s) (exec_decode_pktClr hset)

/-- PKT_PUSH counts PLEN up and stays at 255 (R96). -/
theorem plen_pushByte (b : Byte) (s : State) :
    (pushByte b s).plen = if s.plen = 255 then 255 else s.plen + 1 := by
  have hmax : plenMax = 255 := rfl
  have hfull : s.plen = 255 ↔ s.plen.toNat = 255 := plen_eq_iff s 255 (by omega)
  rw [pushByte_plen, hmax]
  split
  case isTrue h => rw [hfull.1 h]; rfl
  case isFalse h =>
    have hlt : s.plen.toNat + 1 ≤ 255 := by have := mt hfull.2 h; omega
    rw [Nat.min_eq_left hlt, BitVec.ofNat_add, BitVec.ofNat_toNat, BitVec.setWidth_eq]
    rfl

/-- Settles O48: the encoding of class I8; PLEN counted, the byte at `PKT[PLEN]` where that exists, and nothing else
written. -/
theorem pktPushAppendsAndCounts : Obligations.PktPushAppendsAndCounts := by
  refine ⟨encodedAs_of_mnemonic .pktPush instrOf_pktPush, fun s b => ?_⟩
  refine ⟨complete (pushByte b s), exec_pktPush s b, ?_, pktByte_pushByte b s⟩
  rw [← plen_pushByte b s]
  rfl

/-- Settles O49: the encoding of class N, and the command's own next state. -/
theorem nopOnlyReportsSuccess : Obligations.NopOnlyReportsSuccess :=
  ⟨encodedAs_of_mnemonic .nop fun _ => rfl, exec_nop⟩

end Sys2Proof.Machine
end

section
/-! PROOF. The status codes (60_exceptions.md R98, R102, R105): one code for every command and state, and the command
that reports it. -/

namespace Sys2Proof.Machine

/-- A word that selects no row of R55 raises ILLEGAL_COMMAND and writes nothing else (R56, R100). -/
theorem execWord_of_not_wf {w : CommandWord} (h : ¬ CommandWord.wf w) (s : State) :
    execWord w s = .next { s with err := 4 } :=
  execWord_of_not_decodes (not_exists.1 (mt (CommandWord.wf_iff_decode w).2 h)) s

/-! ### The code that a command reports, by the order of R102 -/

/-- The four words of the buffer that the framed checksum covers (R81). -/
abbrev checkedWords (s : State) : List Word :=
  [pktByte s 0 ++ pktByte s 1, pktByte s 2 ++ pktByte s 3, pktByte s 4 ++ pktByte s 5, pktByte s 6 ++ pktByte s 7]

/-- The checksum that the buffer holds as a framed packet (R81). -/
abbrev sentCrc (s : State) : Word := pktByte s 8 ++ pktByte s 9

/-- The header that the buffer holds as a framed packet (R81). -/
abbrev sentHeader (s : State) : Word := pktByte s 0 ++ pktByte s 1

/-- What decoding the buffer as a compact packet reports. -/
def compactCode (s : State) : StatusCode := if s.plen ≠ 4 then .invalidLength else .ok

/-- What decoding the buffer as a framed packet reports. -/
def framedCode (s : State) : StatusCode :=
  if s.plen ≠ 10 then .invalidLength
  else if compute (checkedWords s) ≠ sentCrc s then .crcMismatch
  else if sentHeader s ≠ 0xAA55 then .badHeader
  else .ok

/-- What a command of the table reports. -/
def reportedCode (i : Instr) (s : State) : StatusCode :=
  match i with
  | .setFmt _ => if s.fmtv = 1 then .formatLocked else .ok
  | .decC => compactCode s
  | .decF => framedCode s
  | .encode => if s.fmtv = 0 then .formatUnset else .ok
  | .decode => if s.fmtv = 0 then .formatUnset else if s.fmt = 0 then compactCode s else framedCode s
  | _ => .ok

/-- `t` follows `s` with the code `c` reported: the command completed with OK, or it raised `c` (R13). -/
inductive Reports : StatusCode → State → State → Prop
  | completed {s : State} (u : State) : Reports .ok s (complete u)
  | raised {c : StatusCode} {s : State} : Reports c s (raise c s)

theorem Reports.err {c : StatusCode} {s t : State} (h : Reports c s t) : t.err = statusBits c := by
  cases h <;> rfl

theorem Reports.eq_raise {c : StatusCode} {s t : State} (h : Reports c s t) (hc : c ≠ .ok) : t = raise c s := by
  cases h with
  | completed u => exact absurd rfl hc
  | raised => rfl

theorem reports_performDecC (s : State) : Reports (compactCode s) s (performDecC s) := by
  unfold compactCode
  split
  case isTrue hplen =>
    rw [performDecC_of_plen_ne s hplen]
    exact .raised
  case isFalse hplen =>
    obtain ⟨r, hr⟩ := exists_decodeCompact_four (pktByte s 0) (pktByte s 1) (pktByte s 2) (pktByte s 3)
    rw [performDecC_of_ok s (not_not.1 hplen) r (bufferPrefix_four s ▸ hr)]
    exact .completed _

/-- The framed decode of the buffer, by the buffer's words: the checksum, then the header (R81). -/
theorem decodeFramed_buffer (s : State) : ∃ r, decodeFramed true (bufferPrefix 10 s) =
    if compute (checkedWords s) ≠ sentCrc s then .error .crcMismatch
    else if sentHeader s ≠ 0xAA55 then .error .badHeader
    else .ok r := by
  obtain ⟨-, hdecode, -⟩ := framedPacketLayout
  rw [bufferPrefix_ten, hdecode]
  simp only [true_and]
  exact ⟨_, rfl⟩

theorem reports_performDecF (s : State) : Reports (framedCode s) s (performDecF s) := by
  unfold framedCode
  split_ifs with hlen hcrc hheader
  · rw [performDecF_of_plen_ne s hlen]
    exact .raised
  all_goals
    obtain ⟨r, hr⟩ := decodeFramed_buffer s
    have hplen : s.plen = 10 := not_not.1 hlen
  · rw [if_pos hcrc] at hr
    rw [performDecF_of_error s hplen _ hr]
    exact .raised
  · rw [if_neg hcrc, if_pos hheader] at hr
    rw [performDecF_of_error s hplen _ hr]
    exact .raised
  · rw [if_neg hcrc, if_neg hheader] at hr
    rw [performDecF_of_ok s hplen r hr]
    exact .completed _

theorem Reports.choice {c d : StatusCode} {s t u : State} {p : Prop} [Decidable p] (ht : Reports c s t)
    (hu : Reports d s u) : Reports (if p then c else d) s (if p then t else u) := by
  split
  · exact ht
  · exact hu

/-- Every command reports the code that the order of R102 gives for it. -/
theorem exec_reports (i : Instr) (s : State) : ∃ t, exec i s = .next t ∧ Reports (reportedCode i s) s t := by
  cases i with
  | setFmt b => exact ⟨_, exec_setFmt s b, .choice .raised (.completed _)⟩
  | decC => exact ⟨_, exec_decC s, reports_performDecC s⟩
  | decF => exact ⟨_, exec_decF s, reports_performDecF s⟩
  | encode => exact ⟨_, exec_encode s, .choice .raised (by split <;> exact .completed _)⟩
  | decode =>
    exact ⟨_, exec_decode s, .choice .raised (.choice (reports_performDecC s) (reports_performDecF s))⟩
  | _ => exact ⟨_, rfl, .completed _⟩

/-- A command with a cause to raise raises that cause's code and writes nothing else (R13, R102). -/
theorem exec_of_reportedCode {i : Instr} {s : State} {c : StatusCode} (h : reportedCode i s = c) (hc : c ≠ .ok) :
    exec i s = .next { s with err := statusBits c } := by
  obtain ⟨t, ht, hrep⟩ := exec_reports i s
  rw [ht, hrep.eq_raise (h ▸ hc), h, raise_eq]

/-- A cause in a framed packet is raised by DEC_F, and by DECODE in a framed session (R87, R90). -/
theorem exec_of_framedCode {s : State} {c : StatusCode} (h : framedCode s = c) (hc : c ≠ .ok) :
    exec .decF s = .next { s with err := statusBits c } ∧
    (s.fmtv = 1 → s.fmt = 1 → exec .decode s = .next { s with err := statusBits c }) := by
  have hdecF : exec .decF s = .next { s with err := statusBits c } := exec_of_reportedCode h hc
  exact ⟨hdecF, fun hset hfmt => (exec_decode_of_framed hset hfmt).trans hdecF⟩

/-- A cause in a compact packet is raised by DEC_C, and by DECODE in a compact session (R79, R90). -/
theorem exec_of_compactCode {s : State} {c : StatusCode} (h : compactCode s = c) (hc : c ≠ .ok) :
    exec .decC s = .next { s with err := statusBits c } ∧
    (s.fmtv = 1 → s.fmt = 0 → exec .decode s = .next { s with err := statusBits c }) := by
  have hdecC : exec .decC s = .next { s with err := statusBits c } := exec_of_reportedCode h hc
  exact ⟨hdecC, fun hset hfmt => (exec_decode_of_compact hset hfmt).trans hdecC⟩

theorem err_of_exec {i : Instr} {s t : State} (h : exec i s = .next t) : t.err = statusBits (reportedCode i s) := by
  obtain ⟨u, hu, hrep⟩ := exec_reports i s
  obtain rfl : u = t := Host.Outcome.next.inj (hu.symm.trans h)
  exact hrep.err

/-- The codes have different numbers (R98). -/
theorem statusBits_injective : Function.Injective statusBits := fun c d => by
  cases c <;> cases d <;> decide

theorem err_eq_statusBits_iff {i : Instr} {s t : State} (h : exec i s = .next t) (c : StatusCode) :
    t.err = statusBits c ↔ reportedCode i s = c := by
  rw [err_of_exec h]
  exact statusBits_injective.eq_iff

/-! ### Each code's causes (R98) -/

section Codes
variable {s : State} {c : StatusCode}

theorem compactCode_eq_iff (hc : c ≠ .ok) : compactCode s = c ↔ .invalidLength = c ∧ s.plen ≠ 4 := by
  unfold compactCode
  split_ifs with hlen
  · exact (and_iff_left hlen).symm
  · exact iff_of_false hc.symm fun h => hlen h.2

theorem framedCode_eq_iff (hc : c ≠ .ok) : framedCode s = c ↔
    .invalidLength = c ∧ s.plen ≠ 10 ∨
    .crcMismatch = c ∧ s.plen = 10 ∧ compute (checkedWords s) ≠ sentCrc s ∨
    .badHeader = c ∧ s.plen = 10 ∧ compute (checkedWords s) = sentCrc s ∧ sentHeader s ≠ 0xAA55 := by
  unfold framedCode
  split_ifs with hlen hcrc hheader <;> simp_all [hc.symm]

theorem reportedCode_eq_iff (i : Instr) (hc : c ≠ .ok) : reportedCode i s = c ↔
    (i = .decC ∨ i = .decode ∧ s.fmtv = 1 ∧ s.fmt = 0) ∧ compactCode s = c ∨
    (i = .decF ∨ i = .decode ∧ s.fmtv = 1 ∧ s.fmt = 1) ∧ framedCode s = c ∨
    .formatUnset = c ∧ (i = .encode ∨ i = .decode) ∧ s.fmtv = 0 ∨
    .formatLocked = c ∧ (∃ b, i = .setFmt b) ∧ s.fmtv = 1 := by
  cases i with
  | setFmt b => obtain h | h := bit_cases s.fmtv <;> simp [reportedCode, h, hc.symm]
  | encode => obtain h | h := bit_cases s.fmtv <;> simp [reportedCode, h, hc.symm]
  | decode =>
    obtain h | h := bit_cases s.fmtv
    · simp [reportedCode, h]
    · obtain hfmt | hfmt := bit_cases s.fmt <;> simp [reportedCode, h, hfmt]
  | _ => simp [reportedCode, hc.symm]

end Codes

/-! ### The obligations -/

/-- Settles O51: a command's ERR is the code it reports, so each code's causes are read off the one table of causes; no
row of it gives ILLEGAL_COMMAND, and no code has the number 7. -/
theorem statusCodesHaveTheirCauses : Obligations.StatusCodesHaveTheirCauses := by
  refine ⟨fun w s hw => execWord_of_not_wf hw s, fun i s t ht => ?_⟩
  have hcode := err_eq_statusBits_iff ht
  refine ⟨(hcode .invalidLength).trans ?length, (hcode .crcMismatch).trans ?crc, (hcode .badHeader).trans ?header,
    mt (hcode .illegalCommand).1 ?illegal, (hcode .formatUnset).trans ?unset, (hcode .formatLocked).trans ?locked,
    ?reserved⟩
  case length =>
    simp only [reportedCode_eq_iff, compactCode_eq_iff, framedCode_eq_iff, ne_eq, reduceCtorEq, not_false_eq_true]
    tauto
  case reserved =>
    rw [err_of_exec ht]
    exact statusBits_ne_seven _
  all_goals simp [reportedCode_eq_iff, compactCode_eq_iff, framedCode_eq_iff]

/-- Settles O52: an illegal word is not decoded, ENCODE, DECODE and SET_FMT look at FMTV first, and a decode, by its own
command or in a session of its format, raises the first cause that its packet gives. -/
theorem firstCauseInOrderIsReported : Obligations.FirstCauseInOrderIsReported := by
  intro s
  have hlengthF (hplen : s.plen ≠ 10) : framedCode s = .invalidLength := if_pos hplen
  have hlengthC (hplen : s.plen ≠ 4) : compactCode s = .invalidLength := if_pos hplen
  refine ⟨fun w hw => execWord_of_not_wf hw s, ?unset, ?locked, ?lengthF, ?lengthC, ?lengthFramed, ?lengthCompact,
    ?crc, ?header⟩
  case unset => exact fun hunset => ⟨exec_encode_of_unset hunset, exec_decode_of_unset hunset⟩
  case locked => exact fun hset b => exec_of_reportedCode (c := .formatLocked) (if_pos hset) (by decide)
  case lengthF => exact fun hplen => (exec_of_framedCode (hlengthF hplen) (by decide)).1
  case lengthC => exact fun hplen => (exec_of_compactCode (hlengthC hplen) (by decide)).1
  case lengthFramed => exact fun hset hfmt hplen => (exec_of_framedCode (hlengthF hplen) (by decide)).2 hset hfmt
  case lengthCompact => exact fun hset hfmt hplen => (exec_of_compactCode (hlengthC hplen) (by decide)).2 hset hfmt
  case crc =>
    intro hplen hverify
    have hcrc : compute (checkedWords s) ≠ sentCrc s := beq_eq_false_iff_ne.1 hverify
    exact exec_of_framedCode ((framedCode_eq_iff (by decide)).2 (.inr (.inl ⟨rfl, hplen, hcrc⟩))) (by decide)
  case header =>
    intro hplen hverify hheader
    have hcrc : compute (checkedWords s) = sentCrc s := (verify_iff _ _).1 hverify
    exact exec_of_framedCode ((framedCode_eq_iff (by decide)).2 (.inr (.inr ⟨rfl, hplen, hcrc, hheader⟩))) (by decide)

/-- Settles O11: by R27 the next state does not depend on the flags before it, the state's own MATCH among them, and a
word that raises writes nothing but ERR. -/
theorem noErrorStopsTheBlock : Obligations.NoErrorStopsTheBlock := by
  intro w s e
  obtain ⟨t, ht, hreports, hchk, hother⟩ := flagsAreWrittenByRuleAndNeverRead w s e s.matched
  refine ⟨t, ht, ?anyCode, ?latch⟩
  case anyCode =>
    by_cases hw : ∃ v, Sys2Proof.decode w = .ok (.crcChk v)
    · obtain ⟨v, hv⟩ := hw
      exact (hchk v hv).2
    · obtain ⟨hmatched, hnext⟩ := hother (not_exists.1 hw)
      have hown : { t with matched := s.matched } = t := by rw [← hmatched]
      exact hnext.trans (congrArg _ hown)
  case latch =>
    intro herr
    have hraise : t = { s with err := t.err } := hreports.resolve_left herr
    rw [hraise]

end Sys2Proof.Machine
end

section
/-! PROOF. Words, commands and lines of assembly (30_encoding.md R52 to R56, R62): the decoder and the encoder as
inverses, the rows of the opcode map, and what a line assembles to. -/

namespace Sys2Proof

/-! ### The decoder and the encoder -/

/-- The encoder's word of a command decodes to it (R54, R62). -/
theorem decode_encode (i : Instr) : decode (encode i) = .ok i := by
  have hfits : i.mnemonic.operandClass.fits (immField (encode i)).toNat := by
    rw [immField_encode]
    exact operandOf_fits i
  rw [decode_of_fields (opField_encode i).symm (rsvField_encode i) hfits, immField_encode, instrOf_operandOf]

/-- Settles O1: a decoded word is its command's word, and that word decodes to its command. -/
theorem decodeAndEncodeAreInverse : Obligations.DecodeAndEncodeAreInverse := fun i _ =>
  ⟨encode_of_decode, fun h => h ▸ decode_encode i⟩

/-- Settles O4: each word is the one that the encoder gives for its command. -/
theorem writtenOutWordsDecode : Obligations.WrittenOutWordsDecode := by
  simp only [Obligations.WrittenOutWordsDecode, decodeAndEncodeAreInverse _ _]
  decide

/-! ### The rows of the opcode map (R55) -/

/-- A row's mask covers the `OP` bits. -/
theorem OperandClass.mask_covers_op (c : OperandClass) : c.mask &&& 0xFF000000 = 0xFF000000 := by
  cases c <;> decide

/-- Rows that select the same word are the same row: they have its `OP`. -/
theorem Mnemonic.eq_of_row_selectedBy {m n : Mnemonic} {w : CommandWord} (hm : m.row.selectedBy w)
    (hn : n.row.selectedBy w) : m = n := by
  obtain ⟨hopm, -⟩ := (m.row_selectedBy_iff w).1 hm
  obtain ⟨hopn, -⟩ := (n.row_selectedBy_iff w).1 hn
  exact Mnemonic.op_injective (hopm.trans hopn.symm)

/-- A row selects the words that decode to its command. -/
theorem Mnemonic.row_selectedBy_iff_decode (m : Mnemonic) (w : CommandWord) :
    m.row.selectedBy w ↔ ∃ i, Sys2Proof.decode w = .ok i ∧ i.mnemonic = m := by
  rw [m.row_selectedBy_iff]
  constructor
  · rintro ⟨hop, hrsv, hfits⟩
    exact ⟨_, decode_of_fields hop hrsv hfits, instrOf_mnemonic m _⟩
  · rintro ⟨i, hi, rfl⟩
    exact ⟨decode_mnemonic_op hi, fields_of_decode (decode_mnemonic_op hi) hi⟩

/-- Settles O3: the table as written; its rows are those of the mnemonics, whose `OP`s differ, and a row selects by the
fields that the decoder reads. -/
theorem opcodeRowsAreTheSpecsAndDoNotOverlap : Obligations.OpcodeRowsAreTheSpecsAndDoNotOverlap := by
  refine ⟨rfl, fun r hr => ?fields, fun w r hr q hq hrw hqw => ?disjoint, fun w r hr => ?decode⟩
  all_goals obtain ⟨m, rfl⟩ := (mem_opcodeTable_iff r).1 hr
  case fields => exact ⟨m.operandClass.mask_covers_op, m.opField_pattern⟩
  case disjoint =>
    obtain ⟨n, rfl⟩ := (mem_opcodeTable_iff q).1 hq
    exact congrArg Mnemonic.row (Mnemonic.eq_of_row_selectedBy hrw hqw)
  case decode => exact m.row_selectedBy_iff_decode w

end Sys2Proof

namespace Sys2Proof.Machine

/-! ### The assembler (R62) -/

/-- The operand of a command line that is not refused, 0 where it has none, fits the command's class. -/
theorem fits_of_wf_command {m : Mnemonic} {o : Option Nat} (h : (AsmLine.command m o).wf = true) :
    m.operandClass.fits (o.getD 0) := by
  cases o with
  | none => exact Nat.two_pow_pos _
  | some v =>
    obtain ⟨-, hfits⟩ := of_decide_eq_true h
    exact hfits

/-- The assembler's word for an operand that fits is the encoder's word of the command with that operand. -/
theorem asmWord_eq_encode {m : Mnemonic} {v : Nat} (h : m.operandClass.fits v) :
    asmWord m v = encode (instrOf m (BitVec.ofNat 16 v)) ∧ (operandOf (instrOf m (BitVec.ofNat 16 v))).toNat = v := by
  have hv : v < 2 ^ 16 := h.trans_le (Nat.pow_le_pow_right (by decide) m.operandClass.bits_le)
  have hnat : (BitVec.ofNat 16 v).toNat = v := Nat.mod_eq_of_lt hv
  have hoperand := operandOf_instrOf m (BitVec.ofNat 16 v) (by rwa [hnat])
  rw [encode_eq_asmWord, hoperand, instrOf_mnemonic, hnat]
  exact ⟨rfl, rfl⟩

/-- Settles O56: a command line's operand fits, so its word is the encoder's; a 32-bit number is a `.word` line that is
not refused; and a line that is not well formed has no words. -/
theorem assembledLineDecodesToItsCommand : Obligations.AssembledLineDecodesToItsCommand := by
  refine ⟨fun m o hwf => ?command, fun w => ?word, fun l hwf => ?refused⟩
  case command =>
    obtain ⟨hword, hoperand⟩ := asmWord_eq_encode (fits_of_wf_command hwf)
    refine ⟨_, _, if_pos hwf, ?_, instrOf_mnemonic m _, hoperand⟩
    rw [hword]
    exact decode_encode _
  case word =>
    have hwf : (AsmLine.word w.toNat).wf = true := decide_eq_true w.isLt
    rw [assembleLine, if_pos hwf, BitVec.ofNat_toNat, BitVec.setWidth_eq]
  case refused =>
    unfold assembleLine
    exact if_neg (Bool.eq_false_iff.1 hwf)

end Sys2Proof.Machine
end

section
/-! PROOF. Which command writes and reads which register (10_state.md R18, R19, R24, R37). -/

namespace Sys2Proof.Machine

/-! ### What each command writes (R18) -/

/-- DEC_C's body writes the transaction registers but MTYPE, and ERR (R79). -/
theorem performDecC_frame (s : State) : performDecC s =
    { s with dir := (performDecC s).dir, addr := (performDecC s).addr, value := (performDecC s).value,
             err := (performDecC s).err } := by
  obtain ⟨-, h⟩ | ⟨-, r, -, h⟩ := performDecC_cases s <;> rw [h] <;> rfl

/-- DEC_F's body writes the transaction registers and ERR (R87). -/
theorem performDecF_frame (s : State) : performDecF s =
    { s with dir := (performDecF s).dir, addr := (performDecF s).addr, value := (performDecF s).value,
             mtype := (performDecF s).mtype, err := (performDecF s).err } := by
  obtain ⟨-, h⟩ | ⟨-, e, -, h⟩ | ⟨-, r, -, h⟩ := performDecF_cases s <;> rw [h] <;> rfl

/-- Settles O13: command by command, from the registers that its body writes. -/
theorem registersAreWrittenOnlyByTheCommandsNamed : Obligations.RegistersAreWrittenOnlyByTheCommandsNamed := by
  intro i s t ht
  cases i with
  | setFmt b =>
    obtain ⟨-, h⟩ | ⟨-, h⟩ := exec_setFmt_cases b s
    all_goals
      obtain rfl := Host.Outcome.next.inj (h.symm.trans ht)
      simp
  | encC =>
    obtain rfl := Host.Outcome.next.inj ht
    rw [performEncC_frame]
    simp
  | encF =>
    obtain rfl := Host.Outcome.next.inj ht
    rw [performEncF_frame]
    simp
  | decC =>
    obtain rfl := Host.Outcome.next.inj ht
    rw [performDecC_frame]
    simp
  | decF =>
    obtain rfl := Host.Outcome.next.inj ht
    rw [performDecF_frame]
    simp
  | encode =>
    obtain ⟨-, h⟩ | ⟨-, -, h⟩ | ⟨-, -, h⟩ := exec_encode_cases s
    all_goals obtain rfl := Host.Outcome.next.inj (h.symm.trans ht)
    · simp
    · rw [performEncC_frame]
      simp
    · rw [performEncF_frame]
      simp
  | decode =>
    obtain ⟨-, h⟩ | ⟨-, -, h⟩ | ⟨-, hfmt, h⟩ := exec_decode_cases s
    all_goals obtain rfl := Host.Outcome.next.inj (h.symm.trans ht)
    · simp
    · rw [performDecC_frame]
      simp
    · rw [performDecF_frame]
      simp [hfmt]
  | _ =>
    obtain rfl := Host.Outcome.next.inj ht
    simp

/-! ### Updates of the state that pass through a command -/

/-- The update `f` of a state passes through a command: its next state from `f s` is its next state from `s`, so
updated. -/
def PassesThrough (f : State → State) (i : Instr) (s : State) : Prop :=
  ∃ t, exec i s = .next t ∧ exec i (f s) = .next (f t)

/-- An update passes through ENCODE where it leaves the format alone and passes through the body that the format
names (R89). -/
theorem passesThrough_encode {f : State → State} {s : State} (hfmtv : (f s).fmtv = s.fmtv) (hfmt : (f s).fmt = s.fmt)
    (hraise : raise .formatUnset (f s) = f (raise .formatUnset s))
    (hcompact : performEncC (f s) = f (performEncC s))
    (hframed : s.fmt = 1 → performEncF (f s) = f (performEncF s)) : PassesThrough f .encode s := by
  obtain ⟨hunset, h⟩ | ⟨hset, hc, h⟩ | ⟨hset, hf, h⟩ := exec_encode_cases s <;> refine ⟨_, h, ?_⟩
  · rw [← hraise]
    exact exec_encode_of_unset (hfmtv.trans hunset)
  · rw [← hcompact]
    exact exec_encode_of_compact (hfmtv.trans hset) (hfmt.trans hc)
  · rw [← hframed hf]
    exact exec_encode_of_framed (hfmtv.trans hset) (hfmt.trans hf)

/-- An update passes through DECODE likewise (R90). -/
theorem passesThrough_decode {f : State → State} {s : State} (hfmtv : (f s).fmtv = s.fmtv) (hfmt : (f s).fmt = s.fmt)
    (hraise : raise .formatUnset (f s) = f (raise .formatUnset s))
    (hcompact : performDecC (f s) = f (performDecC s))
    (hframed : s.fmt = 1 → performDecF (f s) = f (performDecF s)) : PassesThrough f .decode s := by
  obtain ⟨hunset, h⟩ | ⟨hset, hc, h⟩ | ⟨hset, hf, h⟩ := exec_decode_cases s <;> refine ⟨_, h, ?_⟩
  · rw [← hraise]
    exact exec_decode_of_unset (hfmtv.trans hunset)
  · rw [← hcompact]
    exact exec_decode_of_compact (hfmtv.trans hset) (hfmt.trans hc)
  · rw [← hframed hf]
    exact exec_decode_of_framed (hfmtv.trans hset) (hfmt.trans hf)

/-- An update that does nothing to a state does nothing to its next state either, where it passes through the
command. -/
theorem PassesThrough.fixed {f : State → State} {i : Instr} {s t : State} (h : PassesThrough f i s) (hs : f s = s)
    (ht : exec i s = .next t) : f t = t := by
  obtain ⟨u, hu, hfu⟩ := h
  obtain rfl : u = t := Host.Outcome.next.inj (hu.symm.trans ht)
  rw [hs, ht] at hfu
  exact (Host.Outcome.next.inj hfu).symm

/-- `s` with another CRC. -/
def State.withCrc (s : State) (c : Word) : State := { s with crc := c }

/-- `s` with another message type. -/
def State.withMtype (s : State) (mt : Word) : State := { s with mtype := mt }

/-- `s` with other bytes in the buffer. -/
def State.withPkt (s : State) (pkt : Vector Byte 10) : State := { s with pkt := pkt }

/-! ### CRC (R19, R86, R87) -/

theorem performDecC_withCrc (s : State) (c : Word) : performDecC (s.withCrc c) = (performDecC s).withCrc c :=
  performDecC_map (f := (·.withCrc c)) rfl rfl rfl fun _ => rfl

theorem performDecF_withCrc (s : State) (c : Word) : performDecF (s.withCrc c) = (performDecF s).withCrc c :=
  performDecF_map (f := (·.withCrc c)) rfl rfl (fun _ => rfl) fun _ => rfl

/-- Another CRC passes through each codec command (R19). -/
theorem withCrc_passesThrough_codec {i : Instr} (hi : i ∈ [Instr.encC, .decC, .encF, .decF, .encode, .decode])
    (s : State) (c : Word) : PassesThrough (·.withCrc c) i s := by
  simp only [List.mem_cons, List.not_mem_nil, or_false] at hi
  obtain rfl | rfl | rfl | rfl | rfl | rfl := hi
  · exact ⟨_, exec_encC s, exec_encC _⟩
  · exact ⟨_, exec_decC s, congrArg _ (performDecC_withCrc s c)⟩
  · exact ⟨_, exec_encF s, exec_encF _⟩
  · exact ⟨_, exec_decF s, congrArg _ (performDecF_withCrc s c)⟩
  · exact passesThrough_encode rfl rfl rfl rfl fun _ => rfl
  · exact passesThrough_decode rfl rfl rfl (performDecC_withCrc s c) fun _ => performDecF_withCrc s c

/-- Settles O14: another CRC passes through a codec command, and so does the state's own, which is therefore kept. -/
theorem codecCommandsLeaveTheCrcRegisterAlone : Obligations.CodecCommandsLeaveTheCrcRegisterAlone := by
  intro i hi s c
  obtain ⟨t, ht, hother⟩ := withCrc_passesThrough_codec hi s c
  have hown : t.withCrc s.crc = t := (withCrc_passesThrough_codec hi s s.crc).fixed rfl ht
  exact ⟨t, ht, (congrArg State.crc hown).symm, hother⟩

/-! ### MTYPE (R24) -/

theorem performDecC_withMtype (s : State) (mt : Word) : performDecC (s.withMtype mt) = (performDecC s).withMtype mt :=
  performDecC_map (f := (·.withMtype mt)) rfl rfl rfl fun _ => rfl

/-- Another message type passes through the commands of the compact format; in a compact session the framed body is not
performed (R24). -/
theorem withMtype_passesThrough_compact {i : Instr} {s : State}
    (hi : i = .encC ∨ i = .decC ∨ ((i = .encode ∨ i = .decode) ∧ s.fmt = 0)) (mt : Word) :
    PassesThrough (·.withMtype mt) i s := by
  have hnotFramed (hfmt : s.fmt = 0) : s.fmt ≠ 1 := by
    rw [hfmt]
    decide
  obtain rfl | rfl | ⟨rfl | rfl, hfmt⟩ := hi
  · exact ⟨_, exec_encC s, exec_encC _⟩
  · exact ⟨_, exec_decC s, congrArg _ (performDecC_withMtype s mt)⟩
  · exact passesThrough_encode rfl rfl rfl rfl fun h => absurd h (hnotFramed hfmt)
  · exact passesThrough_decode rfl rfl rfl (performDecC_withMtype s mt) fun h => absurd h (hnotFramed hfmt)

/-- Settles O15: another message type passes through, and so does the state's own, which is therefore kept. -/
theorem compactCommandsIgnoreTheMessageType : Obligations.CompactCommandsIgnoreTheMessageType := by
  intro i s mt hi
  obtain ⟨t, ht, hother⟩ := withMtype_passesThrough_compact hi mt
  have hown : t.withMtype s.mtype = t := (withMtype_passesThrough_compact hi s.mtype).fixed rfl ht
  exact ⟨t, ht, (congrArg State.mtype hown).symm, hother⟩

/-! ### The bytes outside the packet (R37) -/

/-- Buffers with the same packet have the same first PLEN bytes (R31). -/
theorem bufferPrefix_withPkt {s : State} {pkt : Vector Byte 10} (h : packetBytes (s.withPkt pkt) = packetBytes s)
    {n : Nat} (hn : n ≤ 10) (hplen : s.plen = BitVec.ofNat 8 n) :
    bufferPrefix n (s.withPkt pkt) = bufferPrefix n s := by
  rwa [packetBytes_of_plen hn hplen, packetBytes_of_plen hn (s := s.withPkt pkt) hplen] at h

theorem performDecC_withPkt {s : State} {pkt : Vector Byte 10} (h : packetBytes (s.withPkt pkt) = packetBytes s) :
    performDecC (s.withPkt pkt) = (performDecC s).withPkt pkt := by
  obtain ⟨hlen, hs⟩ | ⟨hlen, r, hr, hs⟩ := performDecC_cases s <;> rw [hs]
  · exact performDecC_of_plen_ne (s.withPkt pkt) (mt (plen_eq_iff s 4 (by omega)).1 hlen)
  · have hplen : s.plen = 4 := (plen_eq_iff s 4 (by omega)).2 hlen
    exact performDecC_of_ok (s.withPkt pkt) hplen r (bufferPrefix_withPkt (n := 4) h (by omega) hplen ▸ hr)

theorem performDecF_withPkt {s : State} {pkt : Vector Byte 10} (h : packetBytes (s.withPkt pkt) = packetBytes s) :
    performDecF (s.withPkt pkt) = (performDecF s).withPkt pkt := by
  have hbuffer (hlen : s.plen.toNat = 10) : s.plen = 10 ∧ bufferPrefix 10 (s.withPkt pkt) = bufferPrefix 10 s :=
    have hplen := (plen_eq_iff s 10 (by omega)).2 hlen
    ⟨hplen, bufferPrefix_withPkt h (by omega) hplen⟩
  obtain ⟨hlen, hs⟩ | ⟨hlen, e, he, hs⟩ | ⟨hlen, r, hr, hs⟩ := performDecF_cases s <;> rw [hs]
  · exact performDecF_of_plen_ne (s.withPkt pkt) (mt (plen_eq_iff s 10 (by omega)).1 hlen)
  · obtain ⟨hplen, hbytes⟩ := hbuffer hlen
    exact performDecF_of_error (s.withPkt pkt) hplen e (hbytes ▸ he)
  · obtain ⟨hplen, hbytes⟩ := hbuffer hlen
    exact performDecF_of_ok (s.withPkt pkt) hplen r (hbytes ▸ hr)

/-- Other bytes outside the packet pass through the decode commands (R37). -/
theorem withPkt_passesThrough_decode {i : Instr} (hi : i = .decC ∨ i = .decF ∨ i = .decode) {s : State}
    {pkt : Vector Byte 10} (h : packetBytes (s.withPkt pkt) = packetBytes s) : PassesThrough (·.withPkt pkt) i s := by
  obtain rfl | rfl | rfl := hi
  · exact ⟨_, exec_decC s, congrArg _ (performDecC_withPkt h)⟩
  · exact ⟨_, exec_decF s, congrArg _ (performDecF_withPkt h)⟩
  · exact passesThrough_decode rfl rfl rfl (performDecC_withPkt h) fun _ => performDecF_withPkt h

/-- Settles O16: bytes with the same packet pass through, and so do the state's own, which are therefore kept. -/
theorem decodeReadsOnlyThePacket : Obligations.DecodeReadsOnlyThePacket := by
  intro i s pkt hi hpacket
  obtain ⟨t, ht, hother⟩ := withPkt_passesThrough_decode hi hpacket
  have hown : t.withPkt s.pkt = t := (withPkt_passesThrough_decode hi (pkt := s.pkt) rfl).fixed rfl ht
  exact ⟨t, ht, (congrArg State.pkt hown).symm, hother⟩

end Sys2Proof.Machine
end

section
/-! PROOF. Steps, runs and programs (10_state.md R25, R26; 20_memory.md R45), the machine's invariant and the session
(43_session_and_load.md R88; 70_reset_and_hazards.md R111, R113). -/

namespace Sys2Proof.Machine

/-! ### One step (R25) -/

/-- Settles O7: the command answers a next state that keeps the command port, and the step moves the index on. -/
theorem stepRunsTheDecodedCommand : Obligations.StepRunsTheDecodedCommand := by
  intro s w i hpresents hdec
  obtain ⟨t, ht, hinputs, hindex⟩ := exec_answers i s
  have hstep := step_of_execWord s t w hpresents ((execWord_of_decode_ok hdec s).trans ht)
  refine ⟨t, ht, ?_, hindex, hinputs⟩
  rw [hstep, ← hindex]
  rfl

theorem step_of_fetch_none {s : State} (h : fetch s = none) : step s = .next s := by
  simp only [step, h]

theorem step_of_fetch_reset {s : State} (h : fetch s = some .reset) : step s = .next (advance (applyReset s)) := by
  simp only [step, h, execInput, advanceOutcome]

/-- Settles O8: by what the host presents. -/
theorem stepOfIllegalWordOfResetAndOfNothing : Obligations.StepOfIllegalWordOfResetAndOfNothing := by
  refine fun s => ⟨fun w e hpresents hdec => ?illegal, step_of_fetch_none, step_of_fetch_reset⟩
  case illegal => exact step_of_execWord s _ w hpresents (execWord_of_decode_error hdec s)

/-! ### What every word does (R13, R45) -/

/-- Every word reports a code: its command's, or ILLEGAL_COMMAND (R98). -/
theorem execWord_reports (w : CommandWord) (s : State) : ∃ c t, execWord w s = .next t ∧ Reports c s t := by
  obtain ⟨i, -, h⟩ | ⟨_, -, h⟩ := execWord_cases w s
  · obtain ⟨t, ht, hrep⟩ := exec_reports i s
    exact ⟨_, t, h.trans ht, hrep⟩
  · exact ⟨_, _, h, .raised⟩

/-- Settles O10: a word completes with OK, or raises its code; a code has the number 0 or it is an error, and none has
the number 7. -/
theorem commandCompletesOrWritesOnlyErr : Obligations.CommandCompletesOrWritesOnlyErr := by
  intro w s
  obtain ⟨c, t, ht, hrep⟩ := execWord_reports w s
  refine ⟨t, ht, or_iff_not_imp_left.2 fun herr => ⟨herr, ?_, ?_⟩⟩
  · rw [hrep.err]
    exact statusBits_ne_seven c
  · have hc : c ≠ .ok := fun hok => herr (by rw [hrep.err, hok]; rfl)
    rw [hrep.eq_raise hc]
    rfl

/-! ### Programs (R26) -/

/-- `s` with another list presented, and another index in it. -/
def State.withPort (s : State) (xs : List Input) (n : Nat) : State := { s with inputs := xs, index := n }

theorem performDecC_withPort (s : State) (xs : List Input) (n : Nat) :
    performDecC (s.withPort xs n) = (performDecC s).withPort xs n :=
  performDecC_map (f := (·.withPort xs n)) rfl rfl rfl fun _ => rfl

theorem performDecF_withPort (s : State) (xs : List Input) (n : Nat) :
    performDecF (s.withPort xs n) = (performDecF s).withPort xs n :=
  performDecF_map (f := (·.withPort xs n)) rfl rfl (fun _ => rfl) fun _ => rfl

/-- What the host presents passes through every command (R19). -/
theorem withPort_passesThrough (xs : List Input) (n : Nat) (i : Instr) (s : State) :
    PassesThrough (·.withPort xs n) i s := by
  cases i with
  | setFmt b =>
    obtain ⟨hset, h⟩ | ⟨hunset, h⟩ := exec_setFmt_cases b s
    · exact ⟨_, h, (exec_setFmt _ b).trans (congrArg _ (if_pos hset))⟩
    · have hne : s.fmtv ≠ 1 := by
        rw [hunset]
        decide
      exact ⟨_, h, (exec_setFmt _ b).trans (congrArg _ (if_neg hne))⟩
  | decC => exact ⟨_, exec_decC s, congrArg _ (performDecC_withPort s xs n)⟩
  | decF => exact ⟨_, exec_decF s, congrArg _ (performDecF_withPort s xs n)⟩
  | encode => exact passesThrough_encode rfl rfl rfl rfl fun _ => rfl
  | decode => exact passesThrough_decode rfl rfl rfl (performDecC_withPort s xs n) fun _ => performDecF_withPort s xs n
  | _ => exact ⟨_, rfl, rfl⟩

/-- The result of a word does not depend on what else is presented (R19). -/
theorem execWord_withPort (xs : List Input) (n : Nat) (w : CommandWord) (s : State) :
    ∃ t, execWord w s = .next t ∧ execWord w (s.withPort xs n) = .next (t.withPort xs n) := by
  cases h : Sys2Proof.decode w with
  | error c => exact ⟨_, execWord_of_decode_error h s, execWord_of_decode_error h _⟩
  | ok i =>
    obtain ⟨t, ht, hport⟩ := withPort_passesThrough xs n i s
    exact ⟨t, (execWord_of_decode_ok h s).trans ht, (execWord_of_decode_ok h _).trans hport⟩

/-- The rest of a program: with `ps` behind and `ws` to come, the machine reaches the result of `ws` in as many steps as
words, and stays there (R26). -/
theorem run_program (ps ws : List CommandWord) (s : State) : ∃ t, execWords ws s = .next t ∧
    ∀ n, core.run (ws.length + n) (s.withPort ((ps ++ ws).map .command) ps.length) =
      .next (t.withPort ((ps ++ ws).map .command) (ps ++ ws).length) := by
  induction ws generalizing ps s with
  | nil =>
    refine ⟨s, rfl, fun n => ?_⟩
    rw [List.append_nil, List.length_nil, Nat.zero_add]
    have hend : fetch (s.withPort (ps.map .command) ps.length) = none := by simp [fetch, State.withPort]
    exact run_of_fetch_none _ hend n
  | cons w ws ih =>
    obtain ⟨t, ht, hport⟩ := execWord_withPort ((ps ++ w :: ws).map .command) ps.length w s
    have hpresents : Presents (s.withPort ((ps ++ w :: ws).map .command) ps.length) w := by
      simp [Presents, fetch, State.withPort]
    obtain ⟨u, hu, hrun⟩ := ih (ps ++ [w]) t
    refine ⟨u, by simpa only [execWords, ht] using hu, fun n => ?_⟩
    rw [List.length_cons, Nat.add_right_comm, run_succ _ _ _ (step_of_execWord _ _ w hpresents hport)]
    simpa [advance, State.withPort] using hrun n

/-- Settles O9: the rest of a program with nothing behind it. -/
theorem programHasExactlyOneResult : Obligations.ProgramHasExactlyOneResult := fun ws s => run_program [] ws s

/-! ### The invariant (R25, R28, R98) -/

/-- Settles O17: at the reset values, with the index at the end of the empty list. -/
theorem invariantHoldsAfterReset : Obligations.InvariantHoldsAfterReset where
  err_legal := by decide
  unset_format _ := rfl
  index_bound := Nat.le_refl _

/-- A command that leaves the format unset leaves FMT at 0: only SET_FMT writes it, and sets it (R88). -/
theorem unset_format_of_exec {i : Instr} {s t : State} (hs : s.fmtv = 0 → s.fmt = 0) (ht : exec i s = .next t)
    (hunset : t.fmtv = 0) : t.fmt = 0 := by
  obtain ⟨-, hwrites, -⟩ := registersAreWrittenOnlyByTheCommandsNamed i s t ht
  by_cases hi : ∃ b, i = .setFmt b
  · obtain ⟨b, rfl⟩ := hi
    obtain ⟨hset, h⟩ | ⟨-, h⟩ := exec_setFmt_cases b s <;> obtain rfl := Host.Outcome.next.inj (h.symm.trans ht)
    · exact absurd (hset.symm.trans hunset) (by decide)
    · exact absurd hunset (by simp)
  · obtain ⟨hfmt, hfmtv⟩ := not_or.1 (mt hwrites hi)
    rw [not_not.1 hfmt]
    exact hs ((not_not.1 hfmtv).symm.trans hunset)

theorem unset_format_of_execWord {w : CommandWord} {s t : State} (hs : s.fmtv = 0 → s.fmt = 0)
    (ht : execWord w s = .next t) (hunset : t.fmtv = 0) : t.fmt = 0 := by
  obtain ⟨i, -, h⟩ | ⟨_, -, h⟩ := execWord_cases w s
  · exact unset_format_of_exec hs (h.symm.trans ht) hunset
  · obtain rfl := Host.Outcome.next.inj (h.symm.trans ht)
    exact hs hunset

theorem err_ne_seven_of_execWord {w : CommandWord} {s t : State} (ht : execWord w s = .next t) : t.err ≠ 7 := by
  obtain ⟨c, u, hu, hrep⟩ := execWord_reports w s
  obtain rfl : u = t := Host.Outcome.next.inj (hu.symm.trans ht)
  rw [hrep.err]
  exact statusBits_ne_seven c

theorem portKept_of_execWord {w : CommandWord} {s t : State} (ht : execWord w s = .next t) : PortKept s t := by
  obtain ⟨u, hu, hkept⟩ := execWord_answers w s
  obtain rfl : u = t := Host.Outcome.next.inj (hu.symm.trans ht)
  exact hkept

/-- There is an input at the index only within the list. -/
theorem index_lt_of_fetch {s : State} {x : Input} (h : fetch s = some x) : s.index < s.inputs.length :=
  (List.getElem?_eq_some_iff.1 h).1

/-- Settles O18: a step waits, resets, or runs a word, which reports a code, treats the format by R88 and keeps the
command port. -/
theorem everyStepKeepsTheInvariant : Obligations.EveryStepKeepsTheInvariant := by
  intro s t hinv hstep
  obtain ⟨-, h⟩ | ⟨hfetch, h⟩ | ⟨w, u, hfetch, hu, h⟩ := step_cases s
  all_goals obtain rfl := Host.Outcome.next.inj (h.symm.trans hstep)
  · exact hinv
  · exact { err_legal := by simp, unset_format := fun _ => rfl, index_bound := index_lt_of_fetch hfetch }
  · obtain ⟨hinputs, hindex⟩ := portKept_of_execWord hu
    have herr : u.err ≠ 7 := err_ne_seven_of_execWord hu
    have hformat : u.fmtv = 0 → u.fmt = 0 := unset_format_of_execWord hinv.unset_format hu
    have hbound : u.index + 1 ≤ u.inputs.length := by
      rw [hindex, hinputs]
      exact index_lt_of_fetch hfetch
    exact { err_legal := herr, unset_format := hformat, index_bound := hbound }

/-! ### The session (R88, R111, R113) -/

/-- Once the format is set no word changes it: an illegal word writes ERR only. -/
theorem execWord_formatKept (w : CommandWord) {s t : State} (hset : s.fmtv = 1) (ht : execWord w s = .next t) :
    FormatKept s t := by
  obtain ⟨i, -, h⟩ | ⟨_, -, h⟩ := execWord_cases w s
  · obtain ⟨u, hu, hkept⟩ := exec_formatKept i hset
    obtain rfl : u = t := Host.Outcome.next.inj (hu.symm.trans (h.symm.trans ht))
    exact hkept
  · obtain rfl := Host.Outcome.next.inj (h.symm.trans ht)
    exact ⟨rfl, rfl⟩

/-- Within a session a step waits, or keeps the format and moves on one place in the same list. -/
theorem step_withinSession {s : State} (hset : s.fmtv = 1) (hfetch : fetch s ≠ some .reset) :
    fetch s = none ∨ ∃ t, step s = .next t ∧ FormatKept s t ∧ t.inputs = s.inputs ∧ t.index = s.index + 1 := by
  obtain ⟨hnone, -⟩ | ⟨hreset, -⟩ | ⟨w, u, -, hu, h⟩ := step_cases s
  · exact .inl hnone
  · exact absurd hreset hfetch
  · obtain ⟨hinputs, hindex⟩ := portKept_of_execWord hu
    have hkept : FormatKept s u := execWord_formatKept w hset hu
    exact .inr ⟨_, h, hkept, hinputs, congrArg (· + 1) hindex⟩

/-- Steps within a session keep its format. -/
theorem run_formatKept (n : Nat) {s : State} (hset : s.fmtv = 1) (hsession : WithinSession s n) :
    ∃ t, core.run n s = .next t ∧ FormatKept s t := by
  induction n generalizing s with
  | zero => exact ⟨s, rfl, rfl, rfl⟩
  | succ n ih =>
    obtain hnone | ⟨t, ht, ⟨hfmtv, hfmt⟩, hinputs, hindex⟩ := step_withinSession hset (hsession 0 (Nat.succ_pos n))
    · exact ⟨s, run_of_fetch_none s hnone _, rfl, rfl⟩
    · have hrest : WithinSession t n := fun k hk => by
        rw [hinputs, hindex, Nat.add_assoc, Nat.add_comm 1 k]
        exact hsession (k + 1) (Nat.succ_lt_succ hk)
      obtain ⟨u, hu, hfmtv', hfmt'⟩ := ih (hfmtv.trans hset) hrest
      exact ⟨u, (run_succ n s t ht).trans hu, hfmtv'.trans hfmtv, hfmt'.trans hfmt⟩

/-- Settles O19: by induction on the steps of the session; and a reset is one step to the reset values. -/
theorem formatIsFixedForTheSession : Obligations.FormatIsFixedForTheSession := by
  refine ⟨fun n s hset hsession => ?session, fun s hreset => ?reset⟩
  case session =>
    obtain ⟨t, ht, hfmtv, hfmt⟩ := run_formatKept n hset hsession
    exact ⟨t, ht, hfmtv.trans hset, hfmt⟩
  case reset => exact ⟨_, run_succ 0 s _ (step_of_fetch_reset hreset), rfl⟩

/-- Settles O20: by the reset values; nothing is presented after reset, so the block waits. -/
theorem resetSetsEveryRegister : Obligations.ResetSetsEveryRegister := by
  refine ⟨fun s => ⟨applyReset s, rfl, rfl, rfl, rfl, rfl, rfl, rfl, rfl, rfl, rfl, fun k => ?_, rfl, rfl⟩, ?_⟩
  · simp [pktByte]
  · exact run_of_fetch_none State.reset rfl

end Sys2Proof.Machine
end

section
/-! PROOF. STATUS, CTRL and the whole block on the read port (10_state.md R28, R29, R33, R34). -/

namespace Sys2Proof.Machine

/-! ### A word of two fields -/

/-- The word with the field `lo` in its low bits, the field `hi` from bit `n` on, and its other bits 0 (R28, R29). -/
abbrev twoFields {a b : Nat} (n : Nat) (lo : BitVec a) (hi : BitVec b) : Word :=
  (hi.setWidth 16 <<< n) ||| lo.setWidth 16

section TwoFields
variable {a b n : Nat} (lo : BitVec a) (hi : BitVec b) (hlo : a ≤ n) (hhi : n + b ≤ 16)
include hlo hhi

theorem getLsbD_twoFields (k : Nat) :
    (twoFields n lo hi).getLsbD k = if k < n then lo.getLsbD k else hi.getLsbD (k - n) := by
  rw [twoFields, BitVec.getLsbD_or, BitVec.getLsbD_shiftLeft, BitVec.getLsbD_setWidth, BitVec.getLsbD_setWidth]
  split
  case isTrue h => simp [h, show k < 16 by omega]
  case isFalse h =>
    rw [BitVec.getLsbD_of_ge lo k (by omega)]
    rcases Nat.lt_or_ge k 16 with hk | hk
    · simp [h, hk, show k - n < 16 by omega]
    · simp [hk.not_gt, BitVec.getLsbD_of_ge hi (k - n) (by omega)]

theorem extract_lo_twoFields : (twoFields n lo hi).extractLsb' 0 a = lo := by
  apply BitVec.eq_of_getLsbD_eq
  intro k hk
  rw [BitVec.getLsbD_extractLsb', getLsbD_twoFields lo hi hlo hhi, Nat.zero_add, if_pos (by omega)]
  simp [hk]

theorem extract_hi_twoFields : (twoFields n lo hi).extractLsb' n b = hi := by
  apply BitVec.eq_of_getLsbD_eq
  intro k hk
  rw [BitVec.getLsbD_extractLsb', getLsbD_twoFields lo hi hlo hhi, if_neg (by omega), Nat.add_sub_cancel_left]
  simp [hk]

/-- The bits between the fields and above them are 0. -/
theorem getLsbD_twoFields_reserved {k : Nat} (hk : a ≤ k ∧ k < n ∨ n + b ≤ k) :
    (twoFields n lo hi).getLsbD k = false := by
  rw [getLsbD_twoFields lo hi hlo hhi]
  split
  · exact BitVec.getLsbD_of_ge lo k (by omega)
  · exact BitVec.getLsbD_of_ge hi (k - n) (by omega)

end TwoFields

/-- Settles O22: STATUS and CTRL are words of two fields. -/
theorem statusAndCtrlFields : Obligations.StatusAndCtrlFields := fun s =>
  ⟨extract_lo_twoFields (n := 4) s.err s.matched (by decide) (by decide),
    getLsbD_twoFields_reserved s.err s.matched (by decide) (by decide) (.inl (by decide)),
    extract_hi_twoFields s.err s.matched (by decide) (by decide),
    fun _ hk => getLsbD_twoFields_reserved s.err s.matched (by decide) (by decide) (.inr hk),
    extract_lo_twoFields (n := 1) s.fmt s.fmtv (by decide) (by decide),
    extract_hi_twoFields s.fmt s.fmtv (by decide) (by decide),
    fun _ hk => getLsbD_twoFields_reserved s.fmt s.fmtv (by decide) (by decide) (.inr hk)⟩

/-! ### The whole block -/

/-- A field no wider than a word is known from the word that shows it (R34). -/
theorem setWidth_word_injective {n : Nat} (hn : n ≤ 16) : Function.Injective fun x : BitVec n => x.setWidth 16 := by
  intro x y h
  have hback : (x.setWidth 16).setWidth n = (y.setWidth 16).setWidth n := congrArg (BitVec.setWidth n) h
  rwa [BitVec.setWidth_setWidth_of_le x hn, BitVec.setWidth_setWidth_of_le y hn, BitVec.setWidth_eq,
    BitVec.setWidth_eq] at hback

/-- The read port does not show what the host presents (R19). -/
theorem rd_withPort (idx : ReadIndex) (s : State) (xs : List Input) (n : Nat) : rd idx (s.withPort xs n) = rd idx s :=
  rfl

/-- Settles O23: each register is a field of the word at its index, and no word shows anything else. -/
theorem readPortShowsEveryRegister : Obligations.ReadPortShowsEveryRegister := by
  refine fun s t => ⟨fun hrd => ?shown, fun hsame idx => ?only⟩
  case shown =>
    obtain ⟨herrs, -, hmatcheds, -, hfmts, hfmtvs, -⟩ := statusAndCtrlFields s
    obtain ⟨herrt, -, hmatchedt, -, hfmtt, hfmtvt, -⟩ := statusAndCtrlFields t
    have hpkt : t.pkt = s.pkt := pkt_ext fun k => setWidth_word_injective (by decide) <| by
      simpa only [rd_pktByte, pktByte] using (hrd (BitVec.ofNat 5 (0x08 + k))).symm
    apply State.eq_of_fields
    · exact (hrd 0x02).symm
    · rw [← hfmts, ← hfmtt, hrd]
    · rw [← hfmtvs, ← hfmtvt, hrd]
    · rw [← herrs, ← herrt, hrd]
    · rw [← hmatcheds, ← hmatchedt, hrd]
    · exact setWidth_word_injective (by decide) (hrd 0x03).symm
    · exact (hrd 0x04).symm
    · exact (hrd 0x05).symm
    · exact (hrd 0x06).symm
    · exact hpkt
    · exact setWidth_word_injective (by decide) (hrd 0x07).symm
    · rfl
    · rfl
  case only =>
    rw [hsame]
    exact (rd_withPort idx s t.inputs t.index).symm

end Sys2Proof.Machine
end

section
/-! PROOF. The laws of the CRC (40_checksum.md R69) and the streamed checksum (10_state.md R30). -/

namespace Sys2Proof.Machine

/-! ### Linearity (R69 laws 1 to 3) -/

/-- A shift step is linear over XOR: the polynomial goes in for the one or the other, and cancels for both. -/
theorem crcStep_xor (a b : Word) : crcStep (a ^^^ b) = crcStep a ^^^ crcStep b := by
  have hmove (x y p : Word) : x ^^^ y ^^^ p = x ^^^ p ^^^ y := by ac_rfl
  have hcancel (x y p : Word) : x ^^^ p ^^^ (y ^^^ p) = x ^^^ y := by
    rw [← BitVec.xor_assoc, hmove x p y, BitVec.xor_assoc, BitVec.xor_self, BitVec.xor_zero]
  simp only [crcStep, BitVec.getLsbD_xor, BitVec.ushiftRight_xor_distrib]
  cases a.getLsbD 0 <;> cases b.getLsbD 0
  · rfl
  · exact BitVec.xor_assoc _ _ _
  · exact hmove _ _ _
  · exact (hcancel _ _ _).symm

theorem crcStep_zero : crcStep 0 = 0 := by decide

theorem crcStep_iterate_xor (n : Nat) (a b : Word) : crcStep^[n] (a ^^^ b) = crcStep^[n] a ^^^ crcStep^[n] b :=
  Function.Semiconj₂.iterate crcStep_xor n a b

/-- Folding is linear over XOR in the value and the word together. -/
theorem crcWord_xor (c₁ c₂ w₁ w₂ : Word) : crcWord (c₁ ^^^ c₂) (w₁ ^^^ w₂) = crcWord c₁ w₁ ^^^ crcWord c₂ w₂ := by
  have hswap : c₁ ^^^ c₂ ^^^ (w₁ ^^^ w₂) = c₁ ^^^ w₁ ^^^ (c₂ ^^^ w₂) := by ac_rfl
  rw [crcWord_eq_iterate, crcWord_eq_iterate, crcWord_eq_iterate, hswap, crcStep_iterate_xor]

/-- A word folds to zero exactly where it is the running value. -/
theorem crcWord_eq_zero_iff (c w : Word) : crcWord c w = 0 ↔ c = w := by
  rw [← crcWord_self c, crcWord_eq_iff, BitVec.xor_right_inj]
  exact eq_comm

/-- Words and a checksum fold to zero exactly where the checksum is theirs. -/
theorem compute_snoc_eq_zero_iff (ws : List Word) (e : Word) : compute (ws ++ [e]) = 0 ↔ compute ws = e := by
  rw [compute_append]
  exact crcWord_eq_zero_iff _ _

/-- Settles O25: shift steps are linear, so folding is; and a value folded into itself is zero. -/
theorem crcIsLinearAndCancelsItself : Obligations.CrcIsLinearAndCancelsItself :=
  ⟨crcStep_xor, crcStep_zero, crcWord_xor, crcWord_self 0, crcWord_self,
    fun ws => (compute_snoc_eq_zero_iff ws _).2 rfl⟩

/-! ### A changed word (R69 law 4) -/

/-- A pattern XORed into one word of a list leaves the folded value the same only where it is zero: up to that word
nothing differs, and after it two values stay apart. -/
theorem foldl_crcWord_modify_xor (ws : List Word) (c e : Word) {j : Nat} (hj : j < ws.length) :
    (ws.modify j (· ^^^ e)).foldl crcWord c = ws.foldl crcWord c ↔ e = 0 := by
  induction ws generalizing c j with
  | nil => simp at hj
  | cons w ws ih =>
    cases j with
    | zero =>
      rw [List.modify_zero_cons, List.foldl_cons, List.foldl_cons, foldl_crcWord_eq_iff, crcWord_eq_iff,
        BitVec.xor_right_inj]
      exact ⟨fun h => (BitVec.xor_right_inj w).1 (h.trans BitVec.xor_zero.symm), fun h => h ▸ BitVec.xor_zero⟩
    | succ j =>
      rw [List.modify_succ_cons, List.foldl_cons, List.foldl_cons]
      exact ih (crcWord c w) (Nat.lt_of_succ_lt_succ hj)

/-- One bit is not the zero word. -/
theorem oneBit_ne_zero {b : Nat} (hb : b < 16) : (1#16 <<< b) ≠ 0 := fun h => by
  have hbit := congrArg (·.getLsbD b) h
  simp [hb] at hbit

/-- Settles O26: one flipped bit is a pattern that is not zero. -/
theorem crcSeesEverySingleBitFlip : Obligations.CrcSeesEverySingleBitFlip := fun ws _ _ hj hb =>
  mt (foldl_crcWord_modify_xor ws _ _ hj).1 (oneBit_ne_zero hb)

/-! ### Byte by byte (R69 law 5) -/

/-- A shift step only shifts a value whose bit 0 is 0. -/
theorem crcStep_shiftLeft_one {x : Word} (hx : x.getLsbD 15 = false) : crcStep (x <<< 1) = x := by
  have hlow : (x <<< 1).getLsbD 0 = false := by simp
  rw [crcStep, hlow, if_neg Bool.false_ne_true]
  apply BitVec.eq_of_getLsbD_eq
  intro k hk
  rcases Nat.lt_or_ge k 15 with h | h
  · simp [show 1 + k < 16 by omega, BitVec.getLsbD_eq_getElem hk]
  · obtain rfl : k = 15 := by omega
    simpa using hx.symm

/-- Shift steps bring down a value from above them without a change. -/
theorem crcStep_iterate_shiftLeft {n : Nat} (hn : n ≤ 16) {x : Word} (hx : ∀ k, 16 - n ≤ k → x.getLsbD k = false) :
    crcStep^[n] (x <<< n) = x := by
  induction n with
  | zero => exact BitVec.shiftLeft_zero x
  | succ n ih =>
    have htop : (x <<< n).getLsbD 15 = false := by
      rw [BitVec.getLsbD_shiftLeft, hx (15 - n) (by omega), Bool.and_false]
    rw [Function.iterate_succ_apply, BitVec.shiftLeft_add, crcStep_shiftLeft_one htop]
    exact ih (by omega) fun k hk => hx k (by omega)

/-- A word is its low byte XOR its high byte, eight bits up. -/
theorem word_eq_xor_bytes (w : Word) :
    w = (w.extractLsb' 0 8).setWidth 16 ^^^ ((w.extractLsb' 8 8).setWidth 16 <<< 8) := by
  apply BitVec.eq_of_getLsbD_eq
  intro k hk
  rw [BitVec.getLsbD_xor, BitVec.getLsbD_shiftLeft, BitVec.getLsbD_setWidth, BitVec.getLsbD_setWidth,
    BitVec.getLsbD_extractLsb', BitVec.getLsbD_extractLsb']
  rcases Nat.lt_or_ge k 8 with h | h
  · simp [h, hk]
  · simp [h.not_gt, hk, show k - 8 < 8 by omega, show k - 8 < 16 by omega, show 8 + (k - 8) = k by omega]

/-- Folding a word is the byte-wise update on its low byte and then on its high byte: the high byte is not looked at
before the first eight shift steps have brought it down. -/
theorem crcWord_eq_crcByte (c w : Word) :
    crcWord c w = crcByte (crcByte c (w.extractLsb' 0 8)) (w.extractLsb' 8 8) := by
  have hhigh : crcStep^[8] ((w.extractLsb' 8 8).setWidth 16 <<< 8) = (w.extractLsb' 8 8).setWidth 16 :=
    crcStep_iterate_shiftLeft (by decide) fun k hk => by
      rw [BitVec.getLsbD_setWidth, BitVec.getLsbD_of_ge _ k hk, Bool.and_false]
  have hsplit : crcStep^[8] (c ^^^ w) =
      crcByte c (w.extractLsb' 0 8) ^^^ (w.extractLsb' 8 8).setWidth 16 := by
    conv_lhs => rw [word_eq_xor_bytes w]
    rw [← BitVec.xor_assoc, crcStep_iterate_xor, hhigh, crcByte]
  rw [crcWord_eq_iterate, Function.iterate_add_apply crcStep 8 8, hsplit]
  rfl

/-- Settles O27: word by word, with the words' bytes in order. -/
theorem crcIsByteWiseOverLittleEndianBytes : Obligations.CrcIsByteWiseOverLittleEndianBytes := by
  refine ⟨crcWord_eq_crcByte, fun ws => ?_⟩
  have hword : crcWord = fun c w => (le16 w).foldl crcByte c := by
    funext c w
    exact crcWord_eq_crcByte c w
  rw [List.foldl_flatMap, compute, hword]
  rfl

/-! ### The streamed checksum (R30) -/

/-- Settles O31: CRC_UPDs go on folding from the value that is there. -/
theorem streamedChecksumIsCompute : Obligations.StreamedChecksumIsCompute := by
  refine ⟨execList_crcWords, fun ws vs s hcrc hok => ?_⟩
  have hcompleted : complete s = s := by rw [complete_eq, ← hok]
  rw [← hcompleted, execList_map_crcUpd, compute_append, ← hcrc]
  rfl

end Sys2Proof.Machine
end

section
/-! PROOF. The laws of the two packet formats (41_compact_codec.md R77; 42_framed_codec.md R85). -/

namespace Sys2Proof.Machine

/-! ### The compact format (R77) -/

/-- Four bytes as two words, low byte first, are decoded from those words (R75). -/
theorem decodeCompact_words (w0 w1 : Word) : decodeCompact (le16 w0 ++ le16 w1) =
    .ok { dir := dirOfAddrWord w0, addr := addrOfAddrWord w0, value := w1 } := by
  change Except.ok (CompactFields.mk (dirOfAddrWord (fromBe _ _)) (addrOfAddrWord (fromBe _ _)) (fromBe _ _)) = _
  simp only [fromBe_bytes]

/-- Decoding a compact packet recovers its fields, the address cut to 15 bits. -/
theorem decodeCompact_encodeCompact (d : BitVec 1) (a v : Word) :
    decodeCompact (encodeCompact d a v) = .ok { dir := d, addr := a.extractLsb' 0 15, value := v } := by
  have hpacket : encodeCompact d a v = le16 (addrWord d a) ++ le16 v := rfl
  rw [hpacket, decodeCompact_words, dirOfAddrWord_addrWord, addrOfAddrWord_addrWord]

/-- Four bytes are two words, low byte first. -/
theorem exists_words_of_length_four (bs : List Byte) (h : bs.length = 4) : ∃ w0 w1, bs = le16 w0 ++ le16 w1 := by
  match bs, h with
  | [b0, b1, b2, b3], _ =>
    refine ⟨fromBe b1 b0, fromBe b3 b2, ?_⟩
    simp only [le16, extract_hi_fromBe, extract_lo_fromBe]
    rfl

/-- Settles O34: four bytes are an address word and a value word, and an address word is its two fields. -/
theorem compactRoundTrip : Obligations.CompactRoundTrip := by
  refine ⟨decodeCompact_encodeCompact, fun bs hlen => ?bytes, fun bs => decodeCompact_of_length_ne⟩
  case bytes =>
    obtain ⟨w0, w1, rfl⟩ := exists_words_of_length_four bs hlen
    refine ⟨_, decodeCompact_words w0 w1, ?_⟩
    rw [encodeCompact, addrWord_fields]
    rfl

/-! ### The framed format (R85) -/

/-- Decoding a framed packet recovers its fields, the address cut to 15 bits. -/
theorem decodeFramed_encodeFramed (hc : Bool) (mt : Word) (d : BitVec 1) (a v : Word) :
    decodeFramed hc (encodeFramed mt d a v) =
      .ok { mtype := mt, dir := d, addr := a.extractLsb' 0 15, value := v } := by
  rw [encodeFramed_eq_words, decodeFramed_words, decodeFramedWords_of_crc _ _ _ _ _ _ rfl,
    if_neg fun h => h.2 rfl, dirOfAddrWord_addrWord, addrOfAddrWord_addrWord]

/-- Settles O38: the packet has its own checksum and the right header. -/
theorem framedRoundTrip : Obligations.FramedRoundTrip :=
  ⟨decodeFramed_encodeFramed, fun _ _ => decodeFramed_of_length_ne⟩

/-- Five words that do not fold to zero are refused: the fifth is not the checksum of the others. -/
theorem decodeFramed_of_compute_ne_zero (hc : Bool) {ws : List Word} (hlen : ws.length = 5) (h : compute ws ≠ 0) :
    decodeFramed hc (ws.flatMap be16) = .error .crcMismatch := by
  match ws, hlen with
  | [w0, w1, w2, w3, w4], _ =>
    have hcrc : compute [w0, w1, w2, w3] ≠ w4 := mt (compute_snoc_eq_zero_iff [w0, w1, w2, w3] w4).2 h
    exact (decodeFramed_words hc w0 w1 w2 w3 w4).trans (decodeFramedWords_crcMismatch hc w0 w1 w2 w3 w4 hcrc)

/-- The five words of a framed packet (R80). -/
def packetWords (mt : Word) (d : BitVec 1) (a v : Word) : List Word :=
  framedWords mt d a v ++ [compute (framedWords mt d a v)]

theorem encodeFramed_eq_flatMap (mt : Word) (d : BitVec 1) (a v : Word) :
    encodeFramed mt d a v = (packetWords mt d a v).flatMap be16 := rfl

/-- A packet's words with its checksum fold to zero. -/
theorem compute_packetWords (mt : Word) (d : BitVec 1) (a v : Word) : compute (packetWords mt d a v) = 0 :=
  (compute_snoc_eq_zero_iff _ _).2 rfl

/-! ### One flipped bit (R85 law 2) -/

/-- A flip beyond the first two bytes is a flip in the bytes after them. -/
theorem flipBit_be16_append_of_ge (w : Word) (bs : List Byte) {n : Nat} (hn : 16 ≤ n) :
    flipBit n (be16 w ++ bs) = be16 w ++ flipBit (n - 16) bs := by
  obtain ⟨k, rfl⟩ : ∃ k, n = k + 16 := ⟨n - 16, by omega⟩
  rw [flipBit, flipBit, Nat.add_sub_cancel, show (k + 16) / 8 = k / 8 + 2 by omega,
    show (k + 16) % 8 = k % 8 by omega]
  rfl

/-- Bit `n` of a word's two bytes on the wire is this bit of the word, the high byte being the first. -/
def wordBit (n : Nat) : Nat := if n < 8 then n + 8 else n - 8

theorem wordBit_lt {n : Nat} (hn : n < 16) : wordBit n < 16 := by
  unfold wordBit
  split <;> omega

/-- The two bytes of a word with one bit set: the bit in the one byte, nothing in the other. -/
theorem extract_hi_oneBit : ∀ n < 16, (1#16 <<< wordBit n).extractLsb' 8 8 = if n < 8 then 1#8 <<< n else 0#8 := by
  decide

theorem extract_lo_oneBit : ∀ n < 16,
    (1#16 <<< wordBit n).extractLsb' 0 8 = if n < 8 then 0#8 else 1#8 <<< (n - 8) := by
  decide

/-- A flip in the first two bytes is a flip in their word. -/
theorem flipBit_be16_append_of_lt (w : Word) (bs : List Byte) {n : Nat} (hn : n < 16) :
    flipBit n (be16 w ++ bs) = be16 (w ^^^ (1#16 <<< wordBit n)) ++ bs := by
  rw [be16, be16, BitVec.extractLsb'_xor, BitVec.extractLsb'_xor, extract_hi_oneBit n hn, extract_lo_oneBit n hn]
  rcases Nat.lt_or_ge n 8 with h | h
  · rw [if_pos h, if_pos h, BitVec.xor_zero, flipBit, Nat.div_eq_of_lt h, Nat.mod_eq_of_lt h]
    rfl
  · rw [if_neg h.not_gt, if_neg h.not_gt, BitVec.xor_zero, flipBit, show n / 8 = 1 by omega,
      show n % 8 = n - 8 by omega]
    rfl

/-- A flipped bit in the bytes of a list of words is a flipped bit in one of the words. -/
theorem flipBit_flatMap_be16 (ws : List Word) {n : Nat} (hn : n < 16 * ws.length) :
    flipBit n (ws.flatMap be16) = (ws.modify (n / 16) (· ^^^ (1#16 <<< wordBit (n % 16)))).flatMap be16 := by
  induction ws generalizing n with
  | nil => simp at hn
  | cons w ws ih =>
    rw [List.flatMap_cons]
    rcases Nat.lt_or_ge n 16 with h | h
    · rw [flipBit_be16_append_of_lt w _ h, Nat.div_eq_of_lt h, Nat.mod_eq_of_lt h]
      rfl
    · obtain ⟨k, rfl⟩ : ∃ k, n = k + 16 := ⟨n - 16, by omega⟩
      rw [List.length_cons] at hn
      rw [flipBit_be16_append_of_ge w _ h, Nat.add_sub_cancel, ih (by omega), Nat.add_mod_right,
        Nat.add_div_right k (by decide)]
      rfl

/-- Settles O39: the flipped bit is in one of the packet's five words, which then fold to something else than zero. -/
theorem framedDecodeSeesEverySingleBitFlip : Obligations.FramedDecodeSeesEverySingleBitFlip := by
  intro hc mt d a v n hn
  have hlen : (packetWords mt d a v).length = 5 := rfl
  rw [encodeFramed_eq_flatMap, flipBit_flatMap_be16 _ (by omega)]
  apply decodeFramed_of_compute_ne_zero hc (by rw [List.length_modify, hlen])
  rw [← compute_packetWords mt d a v]
  exact crcSeesEverySingleBitFlip _ _ _ (by omega) (wordBit_lt (Nat.mod_lt n (by decide)))

/-! ### Bad headers, and how many packets pass (R85 law 4) -/

/-- The ten bytes of four words and their checksum. -/
def sealedBytes : Word × Word × Word × Word → List Byte
  | (w0, w1, w2, w3) => be16 w0 ++ be16 w1 ++ be16 w2 ++ be16 w3 ++ be16 (compute [w0, w1, w2, w3])

theorem length_sealedBytes (p : Word × Word × Word × Word) : (sealedBytes p).length = 10 := rfl

/-- The decode of words with their own checksum is decided by the header (R81). -/
theorem decodeFramed_sealedBytes (hc : Bool) (w0 w1 w2 w3 : Word) : decodeFramed hc (sealedBytes (w0, w1, w2, w3)) =
    if hc = true ∧ w0 ≠ 0xAA55 then .error .badHeader
    else .ok { mtype := w1, dir := dirOfAddrWord w2, addr := addrOfAddrWord w2, value := w3 } := by
  rw [sealedBytes, decodeFramed_words, decodeFramedWords_of_crc _ _ _ _ _ _ rfl]

/-- Ten bytes are words with their own checksum, or they are refused for their checksum. -/
theorem sealed_or_crcMismatch (hc : Bool) {bs : List Byte} (hlen : bs.length = 10) :
    (∃ p, sealedBytes p = bs) ∨ decodeFramed hc bs = .error .crcMismatch := by
  obtain ⟨w0, w1, w2, w3, w4, rfl⟩ := exists_words_of_length_ten bs hlen
  by_cases hcrc : compute [w0, w1, w2, w3] = w4
  · exact .inl ⟨(w0, w1, w2, w3), by rw [← hcrc]; rfl⟩
  · exact .inr (by rw [decodeFramed_words, decodeFramedWords_crcMismatch _ _ _ _ _ _ hcrc])

theorem length_of_decodeFramed_ne {hc : Bool} {bs : List Byte} (h : decodeFramed hc bs ≠ .error .invalidLength) :
    bs.length = 10 :=
  not_not.1 (mt decodeFramed_of_length_ne h)

/-- The first four words of ten bytes. -/
def firstWords : List Byte → Word × Word × Word × Word
  | [b0, b1, b2, b3, b4, b5, b6, b7, _, _] => (fromBe b0 b1, fromBe b2 b3, fromBe b4 b5, fromBe b6 b7)
  | _ => (0, 0, 0, 0)

theorem firstWords_sealedBytes (p : Word × Word × Word × Word) : firstWords (sealedBytes p) = p := by
  change (fromBe _ _, fromBe _ _, fromBe _ _, fromBe _ _) = p
  simp only [fromBe_bytes]

theorem sealedBytes_injective : Function.Injective sealedBytes :=
  Function.LeftInverse.injective firstWords_sealedBytes

/-- The packets that pass the CRC check, as ten bytes. -/
theorem passes_crc_iff (bs : List Byte) :
    bs.length = 10 ∧ decodeFramed true bs ≠ .error .crcMismatch ↔ ∃ p, sealedBytes p = bs := by
  constructor
  · rintro ⟨hlen, hcrc⟩
    exact (sealed_or_crcMismatch true hlen).resolve_right hcrc
  · rintro ⟨⟨w0, w1, w2, w3⟩, rfl⟩
    refine ⟨length_sealedBytes _, ?_⟩
    rw [decodeFramed_sealedBytes]
    split <;> simp

/-- The packets that are decoded, as ten bytes. -/
theorem decodes_iff (bs : List Byte) :
    (bs.length = 10 ∧ ∃ r, decodeFramed true bs = .ok r) ↔ ∃ q, sealedBytes (0xAA55, q) = bs := by
  constructor
  · rintro ⟨hlen, r, hr⟩
    obtain ⟨⟨w0, q⟩, rfl⟩ := (passes_crc_iff bs).1 ⟨hlen, by simp [hr]⟩
    rw [decodeFramed_sealedBytes] at hr
    split at hr
    case isTrue => cases hr
    case isFalse h =>
      have hheader : w0 = 0xAA55 := not_not.1 (not_and.1 h rfl)
      exact ⟨q, by rw [hheader]⟩
  · rintro ⟨⟨w1, w2, w3⟩, rfl⟩
    exact ⟨length_sealedBytes _, _, (decodeFramed_sealedBytes true _ w1 w2 w3).trans (if_neg fun h => h.2 rfl)⟩

/-- A property that singles out the values of an injective function holds of as many things as the function has
arguments. -/
theorem card_subtype_of_range {α β : Type} {f : α → β} {p : β → Prop} (hf : Function.Injective f)
    (hp : ∀ b, p b ↔ ∃ a, f a = b) : Nat.card { b // p b } = Nat.card α :=
  (Nat.card_congr (Equiv.subtypeEquivRight hp)).trans (Nat.card_range_of_injective hf)

theorem card_word : Nat.card Word = 2 ^ 16 :=
  Nat.card_eq_of_equiv_fin BitVec.equivFin.toEquiv

/-- Settles O40: ten bytes that pass the CRC check are four words and their checksum, and the header decides the
rest. -/
theorem framedBadHeaderExactlyAndCounts : Obligations.FramedBadHeaderExactlyAndCounts := by
  refine ⟨fun hc bs => ⟨fun h => ?wrongHeader, ?refused⟩, ?passing, ?good⟩
  case wrongHeader =>
    have hlen : bs.length = 10 := length_of_decodeFramed_ne (hc := hc) (by simp [h])
    obtain ⟨⟨w0, w1, w2, w3⟩, rfl⟩ := (sealed_or_crcMismatch hc hlen).resolve_right (by simp [h])
    rw [decodeFramed_sealedBytes] at h
    split at h
    case isTrue hheader => exact ⟨hheader.1, w0, w1, w2, w3, hheader.2, rfl⟩
    case isFalse => cases h
  case refused =>
    rintro ⟨rfl, w0, w1, w2, w3, hheader, rfl⟩
    exact (decodeFramed_sealedBytes true w0 w1 w2 w3).trans (if_pos ⟨rfl, hheader⟩)
  case passing =>
    rw [card_subtype_of_range sealedBytes_injective passes_crc_iff]
    simp only [Nat.card_prod, card_word, ← Nat.pow_add]
  case good =>
    rw [card_subtype_of_range (sealedBytes_injective.comp (Prod.mk_right_injective 0xAA55)) decodes_iff]
    simp only [Nat.card_prod, card_word, ← Nat.pow_add]

end Sys2Proof.Machine
end

section
/-! PROOF. PKT_LOAD (10_state.md R31, R32; 30_encoding.md R63), and a packet carried from one block to another
(41_compact_codec.md, 42_framed_codec.md). -/

namespace Sys2Proof.Machine

/-! ### PKT_LOAD -/

/-- `s` after OK, with `pkt` in the buffer and `n` bytes counted. -/
def State.withBytes (s : State) (pkt : Vector Byte 10) (n : Nat) : State :=
  { s with pkt := pkt, plen := BitVec.ofNat 8 (min n 255), err := 0 }

theorem withBytes_plen_toNat (s : State) (pkt : Vector Byte 10) (n : Nat) :
    (s.withBytes pkt n).plen.toNat = min n 255 :=
  Nat.mod_eq_of_lt (by omega)

/-- PKT_PUSH writes the buffer, PLEN and ERR (R96). -/
theorem complete_pushByte (b : Byte) (s : State) : complete (pushByte b s) =
    { s with pkt := (pushByte b s).pkt, plen := (pushByte b s).plen, err := 0 } := rfl

/-- PKT_PUSH after `n` bytes puts its byte at index `n`, where the buffer has one, and counts it (R96). -/
theorem exec_pktPush_withBytes (b : Byte) (s : State) (pkt : Vector Byte 10) (n : Nat) :
    exec (.pktPush b) (s.withBytes pkt n) = .next (s.withBytes (pkt.setIfInBounds n b) (n + 1)) := by
  have hcount := withBytes_plen_toNat s pkt n
  have hpkt : (pushByte b (s.withBytes pkt n)).pkt = pkt.setIfInBounds n b := by
    rw [pushByte_pkt, hcount, Config.block_pktCapacity]
    rcases Nat.lt_or_ge n 10 with h | h
    · rw [if_pos (by omega), Nat.min_eq_left (by omega)]
      rfl
    · rw [if_neg (by omega), Vector.setIfInBounds_eq_of_size_le h]
      rfl
  have hplen : (pushByte b (s.withBytes pkt n)).plen = BitVec.ofNat 8 (min (n + 1) 255) := by
    have hmax : plenMax = 255 := rfl
    rw [pushByte_plen, hcount, hmax, show min (min n 255 + 1) 255 = min (n + 1) 255 by omega]
  rw [exec_pktPush, complete_pushByte, hpkt, hplen]
  rfl

/-- PKT_PUSHes after `n` bytes store theirs from index `n` on, as far as the buffer goes. -/
theorem execList_map_pktPush (bs : List Byte) (s : State) (pkt : Vector Byte 10) (n : Nat) :
    execList (bs.map .pktPush) (s.withBytes pkt n) = .next (s.withBytes (storeFrom n bs pkt) (n + bs.length)) := by
  induction bs generalizing pkt n with
  | nil => rfl
  | cons b bs ih =>
    rw [List.map_cons, execList, exec_pktPush_withBytes]
    dsimp only
    rw [ih, List.length_cons, storeFrom, Nat.add_assoc, Nat.add_comm 1]

/-- PKT_LOAD stores its bytes from the front of the buffer, and counts them (R63). -/
theorem execList_pktLoad (bs : List Byte) (s : State) :
    execList (pktLoad bs) s = .next (s.withBytes (storeFrom 0 bs s.pkt) bs.length) := by
  rw [← Nat.zero_add bs.length, ← execList_map_pktPush]
  rfl

/-- The packet after PKT_LOAD is its first ten bytes. -/
theorem packetBytes_withBytes (bs : List Byte) (s : State) :
    packetBytes (s.withBytes (storeFrom 0 bs s.pkt) bs.length) = bs.take 10 := by
  apply List.ext_getElem
  · rw [length_packetBytes, withBytes_plen_toNat, List.length_take]
    omega
  · intro k hk hk'
    rw [List.length_take] at hk'
    simp only [packetBytes, getElem_bufferPrefix, List.getElem_take]
    simp only [pktByte, State.withBytes, Fin.getElem_fin]
    rw [getElem_storeFrom]
    simp [show k < bs.length by omega]

/-- The bytes behind those loaded keep their values. -/
theorem pktByte_withBytes_of_length_le {bs : List Byte} {k : Fin 10} (hk : bs.length ≤ k) (s : State) (n : Nat) :
    pktByte (s.withBytes (storeFrom 0 bs s.pkt) n) k = pktByte s k := by
  simp [pktByte, State.withBytes, getElem_storeFrom, hk.not_gt]

/-- Settles O50: the bytes are stored from the front of the buffer and counted one by one. -/
theorem pktLoadFillsTheBuffer : Obligations.PktLoadFillsTheBuffer := fun bs s =>
  ⟨_, execList_pktLoad bs s, rfl, packetBytes_withBytes bs s, fun _ hk => pktByte_withBytes_of_length_le hk s _⟩

/-! ### A packet received and decoded -/

/-- A last command after a list of commands. -/
theorem execList_snoc {is : List Instr} {j : Instr} {s t u : State} (his : execList is s = .next t)
    (hj : exec j t = .next u) : execList (is ++ [j]) s = .next u := by
  rw [execList_append is [j] s t his, execList, hj]
  rfl

/-- Ten bytes loaded are the whole buffer. -/
theorem execList_pktLoad_toList (pkt : Vector Byte 10) (s : State) :
    execList (pktLoad pkt.toList) s = .next (s.withBytes pkt 10) := by
  have hall : storeFrom 0 pkt.toList s.pkt = pkt := pkt_ext fun k => by
    simp [getElem_storeFrom]
  rw [execList_pktLoad, hall, Vector.length_toList]

/-- A framed packet loaded and decoded, where the codec accepts it. -/
theorem execList_receiveFramed_of_ok {pkt : Vector Byte 10} {f : FramedFields}
    (h : decodeFramed true pkt.toList = .ok f) (s : State) :
    execList (pktLoad pkt.toList ++ [.decF]) s = .next (complete (loadFramed f (s.withBytes pkt 10))) :=
  execList_snoc (execList_pktLoad_toList pkt s) (exec_decF_of_ok rfl h)

/-- A framed packet loaded and decoded, where the codec refuses it. -/
theorem execList_receiveFramed_of_error {pkt : Vector Byte 10} {e : CodecError}
    (h : decodeFramed true pkt.toList = .error e) (s : State) :
    execList (pktLoad pkt.toList ++ [.decF]) s =
      .next { s.withBytes pkt 10 with err := statusBits (codecStatus e) } :=
  execList_snoc (execList_pktLoad_toList pkt s) (exec_decF_of_error rfl h)

/-- Four bytes loaded are the packet. -/
theorem packetBytes_load_four {bs : List Byte} (hlen : bs.length = 4) (s : State) :
    packetBytes (s.withBytes (storeFrom 0 bs s.pkt) 4) = bs := by
  rw [← hlen, packetBytes_withBytes, List.take_of_length_le (by omega)]

/-- A compact packet loaded and decoded: the transaction registers but MTYPE, and the packet in the buffer. -/
theorem receiveCompact {bs : List Byte} (hlen : bs.length = 4) {f : CompactFields} (h : decodeCompact bs = .ok f)
    (s : State) : ∃ u, execList (pktLoad bs ++ [.decC]) s = .next u ∧
      u = { s with dir := f.dir, addr := f.addr.setWidth 16, value := f.value, pkt := u.pkt, plen := 4, err := 0 } ∧
      packetBytes u = bs ∧ ∀ k : Fin 10, 4 ≤ k → pktByte u k = pktByte s k := by
  have hload := execList_pktLoad bs s
  have hpacket := packetBytes_load_four hlen s
  rw [hlen] at hload
  have hprefix : bufferPrefix 4 (s.withBytes (storeFrom 0 bs s.pkt) 4) = bs := by
    rw [← packetBytes_of_plen (by omega) rfl, hpacket]
  have hdecC := exec_decC (s.withBytes (storeFrom 0 bs s.pkt) 4)
  rw [performDecC_of_ok _ rfl f (hprefix.symm ▸ h)] at hdecC
  exact ⟨_, execList_snoc hload hdecC, rfl, hpacket,
    fun k hk => pktByte_withBytes_of_length_le (hlen.trans_le hk) s 4⟩

/-- The address that a packet carries, as DEC_C and DEC_F load it. -/
theorem setWidth_extract_addr (a : Word) : (a.extractLsb' 0 15).setWidth 16 = a &&& 0x7FFF := by
  have hmask : ∀ k < 16, (0x7FFF#16).getLsbD k = decide (k < 15) := by decide
  apply BitVec.eq_of_getLsbD_eq
  intro k hk
  rw [BitVec.getLsbD_setWidth, BitVec.getLsbD_extractLsb', BitVec.getLsbD_and, BitVec.ofNat_eq_ofNat, hmask k hk]
  simp [hk, Bool.and_comm]

/-- Settles O53: the buffer that ENC_F leaves is the receiver's, and its decode gives the fields back. -/
theorem framedPacketCarriesTheTransaction : Obligations.FramedPacketCarriesTheTransaction := by
  intro s r
  have hbytes := toList_pkt_performEncF s
  have hdecode : decodeFramed true (performEncF s).pkt.toList = _ :=
    hbytes ▸ decodeFramed_encodeFramed true s.mtype s.dir s.addr s.value
  refine ⟨performEncF s, _, exec_encF s, ?_, rfl⟩
  rw [packetBytes_performEncF, ← hbytes, execList_receiveFramed_of_ok hdecode, ← setWidth_extract_addr]
  rfl

/-- Settles O54: the four bytes that ENC_C leaves are the receiver's packet, and their decode gives the fields back. -/
theorem compactPacketCarriesTheTransaction : Obligations.CompactPacketCarriesTheTransaction := by
  intro s r
  have hdecode := decodeCompact_encodeCompact s.dir s.addr s.value
  obtain ⟨u, hreceived, hregisters, hpacket, hbehind⟩ := receiveCompact (length_encodeCompact _ _ _) hdecode r
  rw [← packetBytes_performEncC] at hreceived hpacket
  rw [setWidth_extract_addr] at hregisters
  exact ⟨performEncC s, u, exec_encC s, hreceived, hregisters, hpacket, hbehind⟩

/-- A flipped bit does not change a packet's length. -/
theorem length_flipBit (n : Nat) (bs : List Byte) : (flipBit n bs).length = bs.length :=
  List.length_modify ..

/-- Ten bytes are the bytes of a buffer. -/
theorem exists_toList_eq {bs : List Byte} (h : bs.length = 10) : ∃ pkt : Vector Byte 10, pkt.toList = bs :=
  ⟨⟨bs.toArray, h⟩, rfl⟩

/-- Settles O55: the receiver's decode sees the flipped bit. -/
theorem corruptedFramedPacketIsRefused : Obligations.CorruptedFramedPacketIsRefused := by
  intro s r n hn
  have hdecode := framedDecodeSeesEverySingleBitFlip true s.mtype s.dir s.addr s.value n hn
  have hlen := (length_flipBit n _).trans (length_encodeFramed s.mtype s.dir s.addr s.value)
  rw [← packetBytes_performEncF] at hdecode hlen
  obtain ⟨pkt, hpkt⟩ := exists_toList_eq hlen
  rw [← hpkt] at hdecode
  have hreceived := execList_receiveFramed_of_error hdecode r
  have hpacket : packetBytes (r.withBytes pkt 10) = pkt.toList := by
    rw [packetBytes_of_plen (n := 10) (by omega) rfl, ← toList_pkt, State.withBytes]
  rw [hpkt] at hreceived hpacket
  exact ⟨performEncF s, _, exec_encF s, hreceived, rfl, hpacket⟩

end Sys2Proof.Machine
end
